-- ==== Sys2Proof/Word.lean ====
section
/-! DEFINITION. The two value types of the machine (spec/00_scope.md rules R6 and R8): everything architectural
is a non-negative decimal integer. There are no bits, bytes or binary widths here, so nothing in this model
is a bit vector. -/

namespace Sys2Proof

/-- `Word` of rule R8: a cell's or the accumulator's value, 0..999. -/
abbrev Word := Fin 1000

/-- `Addr` of rule R8: the program counter's range, 0..99. -/
abbrev Addr := Fin 100

end Sys2Proof
end

