-- ==== Sys2Proof/Config.lean ====
section
/-! DEFINITION. The three open parameters of spec/00_scope.md rule R7. `State` carries one value of `Params`, which
no operation changes: a statement about every state is a statement about every setting (notes/assumptions/2.md). -/

namespace Sys2Proof

/-- P_INVALID_POLICY (R7, R162): what an invalid instruction does. -/
inductive InvalidPolicy where
  | halt
  | fault
  deriving DecidableEq, Repr

/-- P_EXT_911 (R7, R64): whether word 911 is INPUT-CHAR or invalid. -/
inductive Ext911 where
  | inputChar
  | invalid
  deriving DecidableEq, Repr

/-- P_NEG_FRAME (R7, R87): whether instructions other than ADD, SUBTRACT and LOAD keep or clear the negative flag. -/
inductive NegFrame where
  | preserve
  | clearOnOthers
  deriving DecidableEq, Repr

/-- One setting of the open parameters of R7. -/
structure Params where
  invalidPolicy : InvalidPolicy
  ext911 : Ext911
  negFrame : NegFrame
  deriving DecidableEq, Repr

/-- The defaults of R7, which the spec's rules use where they name no parameter. -/
def Params.default : Params where
  invalidPolicy := .halt
  ext911 := .inputChar
  negFrame := .preserve

/-- N_CELLS of R6: the number of memory cells. -/
def numCells : Nat := 100

end Sys2Proof
end

