-- ==== Sys2Proof/Syntax.lean ====
section
/-! DEFINITION. The decoded instructions, one constructor per row of spec/opcode_table.json, and their kinds
(spec/00_scope.md rule R11, spec/30_encoding.md rule R62). -/

namespace Sys2Proof

/-- A decoded instruction. The memory operand of ADD, SUBTRACT, STORE and LOAD is a `Nat`, wider than an address, so that
the injected STORE(150) of 90_conflicts.md C4 and R161 can be written down and faults as they say; `Instr.wellFormed`
says it is an address. A branch target is an `Addr`: the spec gives no effect for one above 99 (R130). -/
inductive Instr where
  /-- `0xx`: HALT; its two operand digits are ignored (R134). -/
  | halt
  /-- `1aa`: ADD (R111). -/
  | add (a : Nat)
  /-- `2aa`: SUBTRACT (R112). -/
  | subtract (a : Nat)
  /-- `3aa`: STORE (R120). -/
  | store (a : Nat)
  /-- `5aa`: LOAD (R121). -/
  | load (a : Nat)
  /-- `6aa`: BRANCH-ALWAYS (R131). -/
  | branchAlways (a : Addr)
  /-- `7aa`: BRANCH-IF-ZERO (R132). -/
  | branchIfZero (a : Addr)
  /-- `8aa`: BRANCH-IF-POSITIVE (R133). -/
  | branchIfPositive (a : Addr)
  /-- `901`: INPUT (R141). -/
  | input
  /-- `902`: OUTPUT (R143). -/
  | output
  /-- `911`: INPUT-CHAR, present when P_EXT_911 is `InputChar` (R142). -/
  | inputChar
  /-- `922`: OUTPUT-CHAR (R144). -/
  | outputChar
  /-- `4xx`: INVALID, the table's family 4 row (R162); `x` is the two digits without meaning. -/
  | invalidFamily (x : Fin 100)
  /-- `9ss`: INVALID, the table's family 9 row (R162); `ss` is the unrecognised sub-code. -/
  | invalidSubcode (ss : Fin 100)
  deriving DecidableEq, Repr

/-- The instruction kinds, by RSMC's long names (R11). The two INVALID rows are one kind. -/
inductive Kind where
  | halt
  | add
  | subtract
  | store
  | load
  | branchAlways
  | branchIfZero
  | branchIfPositive
  | input
  | output
  | inputChar
  | outputChar
  | invalid
  deriving DecidableEq, Repr

end Sys2Proof
end

