-- ==== Sys2Proof/WellFormed.lean ====
section
/-! DEFINITION. Which decoded instructions some word of the machine encodes (spec/30_encoding.md rules R61, R62, R64). -/

namespace Sys2Proof

/-- Rules R62 and R64: the family 9 sub-codes that decode as INVALID under the parameter P_EXT_911. -/
def subcodeIsInvalid (ext : Ext911) (ss : Fin 100) : Bool :=
  ss != 1 && ss != 2 && ss != 22 && (ss != 11 || ext == .invalid)

/-- The instruction is one that a word of 0..999 decodes to: a memory operand is an address (R61), INPUT-CHAR exists only
under `InputChar`, and an INVALID of family 9 holds a sub-code that names no operation (R64). -/
def Instr.wellFormed (ext : Ext911) : Instr → Bool
  | .halt => true
  | .add a => decide (a < 100)
  | .subtract a => decide (a < 100)
  | .store a => decide (a < 100)
  | .load a => decide (a < 100)
  | .branchAlways _ => true
  | .branchIfZero _ => true
  | .branchIfPositive _ => true
  | .input => true
  | .output => true
  | .inputChar => ext == .inputChar
  | .outputChar => true
  | .invalidFamily _ => true
  | .invalidSubcode ss => subcodeIsInvalid ext ss

end Sys2Proof
end

