-- ==== Sys2Proof/Decode.lean ====
section
/-! DEFINITION. The decimal decoder of spec/30_encoding.md rule R62, the encoder written from the same formats, and the
opcode table as data (R67). The decoder is total: every `Word` decodes to exactly one instruction (R63), and the words
that name no operation decode to the INVALID marker. A number that is no `Word` is refused by name. -/

namespace Sys2Proof

/-- R61: the opcode family, the hundreds digit, `w div 100`. -/
def opFamily (w : Word) : Nat := w.val / 100

/-- R61: the operand, the two low digits, `w mod 100`, used as it is. -/
def operandField (w : Word) : Fin 100 := ⟨w.val % 100, Nat.mod_lt _ (by decide)⟩

/-- R62, family 9: the sub-code selects the I/O operation. -/
def decodeSubcode (ext : Ext911) (ss : Fin 100) : Instr :=
  if ss = 1 then .input
  else if ss = 2 then .output
  else if ss = 11 then
    match ext with
    | .inputChar => .inputChar
    | .invalid => .invalidSubcode ss
  else if ss = 22 then .outputChar
  else .invalidSubcode ss

/-- The decoder of R62. The last arm is family 9: a `Word`'s hundreds digit is 0..9 (R61). -/
def decode (ext : Ext911) (w : Word) : Instr :=
  match opFamily w with
  | 0 => .halt
  | 1 => .add (operandField w).val
  | 2 => .subtract (operandField w).val
  | 3 => .store (operandField w).val
  | 4 => .invalidFamily (operandField w)
  | 5 => .load (operandField w).val
  | 6 => .branchAlways (operandField w)
  | 7 => .branchIfZero (operandField w)
  | 8 => .branchIfPositive (operandField w)
  | _ => decodeSubcode ext (operandField w)

/-- Why a number is not decoded. The decoder's domain is 0..999 (R8, R62); safe: no cell can hold such a number. -/
inductive DecodeRefusal where
  | notAWord (value : Nat)
  deriving DecidableEq, Repr

/-- The decoder on any number: a `Word` decodes, any other number is refused by name. -/
def decodeValue (ext : Ext911) (v : Nat) : Except DecodeRefusal Instr :=
  if h : v < 1000 then .ok (decode ext ⟨v, h⟩) else .error (.notAWord v)

/-- The instruction the decoder reads from the number `w` of the opcode table (its `match` is a decimal value, not a
pattern of bits), under the default parameters. An instruction is one cell (R60), so `nbits` adds nothing. -/
def decodeTableWord (_nbits w : Nat) : Option Instr :=
  match decodeValue Params.default.ext911 w with
  | .ok i => some i
  | .error _ => none

/-- The kind of a decoded instruction (R11). -/
def Instr.kind : Instr → Kind
  | .halt => .halt
  | .add _ => .add
  | .subtract _ => .subtract
  | .store _ => .store
  | .load _ => .load
  | .branchAlways _ => .branchAlways
  | .branchIfZero _ => .branchIfZero
  | .branchIfPositive _ => .branchIfPositive
  | .input => .input
  | .output => .output
  | .inputChar => .inputChar
  | .outputChar => .outputChar
  | .invalidFamily _ => .invalid
  | .invalidSubcode _ => .invalid

/-- The name of each kind as the rules and the opcode table spell it (R11). -/
def Kind.name : Kind → String
  | .halt => "HALT"
  | .add => "ADD"
  | .subtract => "SUBTRACT"
  | .store => "STORE"
  | .load => "LOAD"
  | .branchAlways => "BRANCH-ALWAYS"
  | .branchIfZero => "BRANCH-IF-ZERO"
  | .branchIfPositive => "BRANCH-IF-POSITIVE"
  | .input => "INPUT"
  | .output => "OUTPUT"
  | .inputChar => "INPUT-CHAR"
  | .outputChar => "OUTPUT-CHAR"
  | .invalid => "INVALID"

/-- The opcode family digit of each instruction (the opcode map of 30_encoding.md section 3). -/
def Instr.family : Instr → Nat
  | .halt => 0
  | .add _ => 1
  | .subtract _ => 2
  | .store _ => 3
  | .invalidFamily _ => 4
  | .load _ => 5
  | .branchAlways _ => 6
  | .branchIfZero _ => 7
  | .branchIfPositive _ => 8
  | .input => 9
  | .output => 9
  | .inputChar => 9
  | .outputChar => 9
  | .invalidSubcode _ => 9

/-- The two low digits of each instruction's word (the opcode map of 30_encoding.md section 3). HALT's are ignored, so
the encoder writes 00. -/
def Instr.lowDigits : Instr → Nat
  | .halt => 0
  | .add a => a
  | .subtract a => a
  | .store a => a
  | .load a => a
  | .branchAlways a => a.val
  | .branchIfZero a => a.val
  | .branchIfPositive a => a.val
  | .input => 1
  | .output => 2
  | .inputChar => 11
  | .outputChar => 22
  | .invalidFamily x => x.val
  | .invalidSubcode ss => ss.val

/-- The one word of a well-formed instruction: value `100·d2 + 10·d1 + d0` (R8, R60). -/
def encode (i : Instr) : Word := Fin.ofNat 1000 (100 * i.family + i.lowDigits)

/-- The masks of the opcode table (R67): `D..` compares the hundreds digit, `DDD` all three digits. -/
inductive TableMask where
  | hundreds
  | allDigits
  deriving DecidableEq, Repr

/-- One row of spec/opcode_table.json: its mask, its match and its kind. -/
structure TableRow where
  mask : TableMask
  value : Nat
  kind : Kind
  deriving DecidableEq, Repr

/-- R67: a word matches a row when every digit at a `D` position equals that digit of the row's match. -/
def TableRow.matchesWord (r : TableRow) (w : Word) : Bool :=
  match r.mask with
  | .hundreds => w.val / 100 == r.value / 100
  | .allDigits => w.val == r.value

/-- The rows of spec/opcode_table.json in its order. The row 911 is present only when P_EXT_911 is `InputChar`. -/
def opcodeTable (ext : Ext911) : List TableRow :=
  [⟨.hundreds, 0, .halt⟩, ⟨.hundreds, 100, .add⟩, ⟨.hundreds, 200, .subtract⟩, ⟨.hundreds, 300, .store⟩,
   ⟨.hundreds, 500, .load⟩, ⟨.hundreds, 600, .branchAlways⟩, ⟨.hundreds, 700, .branchIfZero⟩,
   ⟨.hundreds, 800, .branchIfPositive⟩, ⟨.allDigits, 901, .input⟩, ⟨.allDigits, 902, .output⟩]
  ++ (match ext with
      | .inputChar => [⟨.allDigits, 911, .inputChar⟩]
      | .invalid => [])
  ++ [⟨.allDigits, 922, .outputChar⟩, ⟨.hundreds, 400, .invalid⟩, ⟨.hundreds, 900, .invalid⟩]

/-- R67: rows are checked in table order, and the first row that matches names the kind. -/
def tableKind (ext : Ext911) (w : Word) : Option Kind :=
  ((opcodeTable ext).find? (fun r => r.matchesWord w)).map TableRow.kind

end Sys2Proof
end

