-- ==== Sys2Proof/Machine/State.lean ====
section
/-! DEFINITION. The machine's state as plain data: the tuple of spec/10_state.md rule R20, the parameters it runs under
(R7), and the host's pending requests (R92). Its reset value is spec/70_reset_and_hazards.md rule R180 for the image
that populates no cell. -/

namespace Sys2Proof.Machine

/-- The kind of value an input wait asks for (R25). -/
inductive InputKind where
  | num
  | char
  deriving DecidableEq, Repr

/-- The faults the core raises, and only these (R160). -/
inductive FaultKind where
  | addressOutOfRange
  | invalidInstruction
  deriving DecidableEq, Repr

/-- The record of a fault, `(kind, fault_pc, info)` (R25, R160): `info` is the offending address or the fetched word. -/
structure FaultRecord where
  kind : FaultKind
  faultPc : Addr
  info : Nat
  deriving DecidableEq, Repr

/-- The run state of R25. The halted flag of R26 is derived from it, not stored. -/
inductive RunState where
  | running
  | awaitingInput (k : InputKind)
  | halted
  | faulted (r : FaultRecord)
  deriving DecidableEq, Repr

/-- An output event, tagged as numeric or character (R27). -/
inductive OutEvent where
  | num (v : Word)
  | char (c : Word)
  deriving DecidableEq, Repr

/-- The host's four operations on the core (R92). The values the host sends are any integers: the core checks them. -/
inductive HostRequest where
  | reset (image : List Int)
  | step
  | resume (v : Int)
  | snapshot
  deriving DecidableEq, Repr

/-- The memory of R40 as (address, value) pairs: addresses strictly rising, no pair equal to what an unlisted address
reads as (`Memory.wf`). A cell is a decimal `Word`, not a byte (R45). -/
abbrev Memory := List (Nat × Word)

/-- The state of the machine. `mem` to `eom` are the eight elements of R20; `params` is the configuration of R7, which
no operation changes; `requests` is the model's own field, the host's requests still to come, oldest first. -/
structure State where
  /-- R40: the 100 cells. -/
  mem : Memory
  /-- R21: the accumulator, the only general register. -/
  acc : Word
  /-- R23: the program counter. -/
  pc : Addr
  /-- R24: the negative flag. -/
  neg : Bool
  /-- R25: the run state. -/
  run : RunState
  /-- R27: the output log, oldest event first. -/
  out : List OutEvent
  /-- R28, hidden: the working register. -/
  ir : Word
  /-- R29, hidden: the end-of-memory latch. -/
  eom : Bool
  /-- R7, R20: the parameters, fixed for a run. -/
  params : Params
  /-- R92, the model's own: when the list is empty the host's next request is `step()`. -/
  requests : List HostRequest
  deriving DecidableEq, Repr

/-- What the host sees of the core (R95). -/
structure Snapshot where
  mem : List Word
  acc : Word
  pc : Addr
  neg : Bool
  halted : Bool
  run : RunState
  out : List OutEvent
  deriving DecidableEq, Repr

/-- What the host gets back from an operation (R92): `nothing` where R94 returns without a report. -/
inductive HostReply where
  | nothing
  | accepted
  | refused
  | invalidInput (v : Int)
  | snapshot (view : Snapshot)
  deriving DecidableEq, Repr

/-- The reasons a step could stop the model with a fault. There is none: every fault of the spec (R160) is a NEXT state
whose run state is `faulted`, as the spec says (R167), so nobody raises a value of this type. Safe. -/
inductive Fault where
  deriving DecidableEq, Repr

/-- The reasons a step could be refused. -/
inductive Refusal where
  /-- Raised by an arm of `exec` whose instruction has no meaning yet; no arm does so now. Safe. -/
  | notModelled (mnemonic : String)
  deriving DecidableEq, Repr

namespace State

/-! The eight named updates, one per element of R20. -/

def withMem (s : State) (m : Memory) : State := { s with mem := m }
def withAcc (s : State) (v : Word) : State := { s with acc := v }
def withPc (s : State) (a : Addr) : State := { s with pc := a }
def withNeg (s : State) (b : Bool) : State := { s with neg := b }
def withRun (s : State) (r : RunState) : State := { s with run := r }
def withOut (s : State) (es : List OutEvent) : State := { s with out := es }
def withIr (s : State) (w : Word) : State := { s with ir := w }
def withEom (s : State) (b : Bool) : State := { s with eom := b }
def withRequests (s : State) (qs : List HostRequest) : State := { s with requests := qs }

/-- R180 for the image with no populated cell, under the default parameters and with no request pending. -/
def reset : State where
  mem := []
  acc := 0
  pc := 0
  neg := false
  run := .running
  out := []
  ir := 0
  eom := false
  params := Params.default
  requests := []

end State

end Sys2Proof.Machine
end

