-- ==== Sys2Proof/Machine/Ops.lean ====
section
/-! DEFINITION. The named operations over memory and registers (spec/20_memory.md, spec/40_cycle.md, spec/44_io.md) and
the raising of a fault (spec/60_exceptions.md). There is no operation that returns from a fault: the core has no
return-from-trap instruction, and only `reset` leaves `Faulted` (R168). -/

namespace Sys2Proof.Machine

/-! ### The 100 cells (R40, R47) -/

/-- What an address that is not listed reads as: cells are "Initialized to all zero" (R47). -/
def Memory.unlisted : Word := 0

/-- The value of the cell at `a`. -/
def Memory.read : Memory → Nat → Word
  | [], _ => Memory.unlisted
  | (k, w) :: rest, a => if k = a then w else Memory.read rest a

/-- The memory without any entry for `a`. -/
def Memory.erase : Memory → Nat → Memory
  | [], _ => []
  | (k, w) :: rest, a => if k = a then Memory.erase rest a else (k, w) :: Memory.erase rest a

/-- The memory with an entry for `a` before the first higher address. -/
def Memory.insert : Memory → Nat → Word → Memory
  | [], a, v => [(a, v)]
  | (k, w) :: rest, a, v => if a < k then (a, v) :: (k, w) :: rest else (k, w) :: Memory.insert rest a v

/-- The memory with `v` at `a`, in the canonical form: a value that an unlisted address reads as is not listed. -/
def Memory.write (m : Memory) (a : Nat) (v : Word) : Memory :=
  if v = Memory.unlisted then Memory.erase m a else Memory.insert (Memory.erase m a) a v

/-- Every listed address is at least `lo` and below 100, addresses rise strictly, and no listed value is the unlisted
one. -/
def Memory.sortedFrom : Nat → Memory → Bool
  | _, [] => true
  | lo, (k, w) :: rest =>
    decide (lo ≤ k) && decide (k < numCells) && decide (w ≠ Memory.unlisted) && Memory.sortedFrom (k + 1) rest

/-- The canonical form of a memory of 100 cells (R40). -/
def Memory.wf (m : Memory) : Bool := Memory.sortedFrom 0 m

/-- The memory whose cells from address `a` on are the listed words. -/
def Memory.ofWords : Nat → List Word → Memory
  | _, [] => []
  | a, w :: rest => if w = Memory.unlisted then Memory.ofWords (a + 1) rest else (a, w) :: Memory.ofWords (a + 1) rest

/-- The values of the `n` cells from address `a` on. -/
def Memory.cellsFrom (m : Memory) : Nat → Nat → List Word
  | _, 0 => []
  | a, n + 1 => m.read a :: Memory.cellsFrom m (a + 1) n

/-- The values of the 100 cells, `mem[0..99]`. -/
def Memory.cells (m : Memory) : List Word := m.cellsFrom 0 numCells

/-! ### Integers the host sends -/

/-- An integer of 0..999 as a `Word`; none for any other (R94, R182). -/
def wordOfInt (v : Int) : Option Word :=
  if h : 0 ≤ v ∧ v ≤ 999 then some ⟨v.toNat, by omega⟩ else none

/-- The words of an image, if every entry lies in 0..999 (R182). -/
def wordsOfImage : List Int → Option (List Word)
  | [] => some []
  | v :: rest =>
    match wordOfInt v, wordsOfImage rest with
    | some w, some ws => some (w :: ws)
    | _, _ => none

/-! ### The program counter (R23, R84) -/

/-- R84: `(pc + 1) mod 100`. -/
def nextPc (a : Addr) : Addr := ⟨(a.val + 1) % 100, Nat.mod_lt _ (by decide)⟩

/-- The address the executing instruction was fetched from. During execute `pc` is `(fetch_pc + 1) mod 100` until a
branch overwrites it (R23), so it is one before `pc`, going round. -/
def fetchPc (s : State) : Addr := ⟨(s.pc.val + 99) % 100, Nat.mod_lt _ (by decide)⟩

/-- A taken branch: `pc <- target`, which also clears `eom` (R9, R84). -/
def branchTo (a : Addr) (s : State) : State := (s.withPc a).withEom false

/-! ### Faults (R160, R167) -/

/-- The numeric codes of R160, labels only (D22). -/
def FaultKind.code : FaultKind → Nat
  | .addressOutOfRange => 1
  | .invalidInstruction => 2

/-- `raise Fault(kind, info)`: `run <- Faulted((kind, fetch_pc, info))` and nothing else is written (R160, R167). -/
def raiseFault (kind : FaultKind) (info : Nat) (s : State) : State :=
  s.withRun (.faulted ⟨kind, fetchPc s, info⟩)

/-! ### Memory access (R41, R42) -/

/-- `MemRead(a, 1)`: none where it raises AddressOutOfRange. -/
def memRead (a : Nat) (s : State) : Option Word :=
  if a > 99 then none else some (s.mem.read a)

/-- `MemWrite(a, 1, v)`. -/
def memWrite (a : Nat) (v : Word) (s : State) : State :=
  if a > 99 then raiseFault .addressOutOfRange a s else s.withMem (s.mem.write a v)

/-! ### The I/O port and stopping (R9, R134, R140) -/

/-- `emit(e)`: append an event to the output log. -/
def emit (e : OutEvent) (s : State) : State := s.withOut (s.out ++ [e])

/-- `await(kind)`: suspend the cycle for an input value. -/
def await (k : InputKind) (s : State) : State := s.withRun (.awaitingInput k)

/-- `run <- Halted`. -/
def halt (s : State) : State := s.withRun .halted

/-- What INVALID does under P_INVALID_POLICY (R162). -/
def invalidInstruction (s : State) : State :=
  match s.params.invalidPolicy with
  | .halt => halt s
  | .fault => raiseFault .invalidInstruction s.ir.val s

/-! ### The cycle around execute (R83, R84, R87) -/

/-- Steps 1 and 2 of the cycle: fetch into `ir`, latch `eom`, increment `pc`. The read cannot fault: `pc` is an
address (R83). -/
def fetch (s : State) : State :=
  ((s.withIr (s.mem.read s.pc.val)).withEom (decide (s.pc.val = 99))).withPc (nextPc s.pc)

/-- R87: the kinds whose completion never touches `neg`. -/
def completionKeepsNeg : Kind → Bool
  | .add => true
  | .subtract => true
  | .load => true
  | .store => false
  | .branchAlways => false
  | .branchIfZero => false
  | .branchIfPositive => false
  | .halt => false
  | .input => false
  | .inputChar => false
  | .output => false
  | .outputChar => false
  | .invalid => false

/-- The negative flag at completion, under P_NEG_FRAME (R87). -/
def completedNeg (k : Kind) (s : State) : Bool :=
  match s.params.negFrame with
  | .preserve => s.neg
  | .clearOnOthers => if completionKeepsNeg k then s.neg else false

/-- The run state at completion: end-of-memory turns `Running` into `Halted` (R87, R89). -/
def completedRun (s : State) : RunState :=
  match s.eom, s.run with
  | true, .running => .halted
  | _, r => r

/-- `complete(inst)` (R87). -/
def complete (k : Kind) (s : State) : State :=
  ((s.withNeg (completedNeg k s)).withRun (completedRun s)).withEom false

/-- Completion runs after execute unless execute raised a fault or entered `AwaitingInput` (R87, R88). -/
def completeUnlessStopped (k : Kind) (s : State) : State :=
  match s.run with
  | .running => complete k s
  | .halted => complete k s
  | .awaitingInput _ => s
  | .faulted _ => s

end Sys2Proof.Machine
end

