-- ==== Sys2Proof/Machine/Flags.lean ====
section
/-! DEFINITION. The ALU: each operation's result and negative flag (spec/41_arithmetic.md rule R110). The raw result is an
exact integer that exists only inside these functions (R22). -/

namespace Sys2Proof.Machine

/-- `alu_add(x, y)` (R110). -/
def aluAdd (x y : Word) : Word × Bool :=
  if h : x.val + y.val > 999 then (⟨x.val + y.val - 1000, by omega⟩, true) else (⟨x.val + y.val, by omega⟩, false)

/-- `alu_sub(x, y)` (R110). The raw result is negative exactly when `x < y`. -/
def aluSub (x y : Word) : Word × Bool :=
  if h : x.val < y.val then (⟨x.val + 1000 - y.val, by omega⟩, true) else (⟨x.val - y.val, by omega⟩, false)

/-- `(acc, neg) <- r`: an ALU result is written to the accumulator and its flag to `neg` (R111, R112). -/
def setAccNeg (r : Word × Bool) (s : State) : State := (s.withAcc r.1).withNeg r.2

end Sys2Proof.Machine
end

