-- ==== Sys2Proof/Machine/Operands.lean ====
section
/-! DEFINITION. The one addressing mode, direct (spec/42_data_transfer.md rule R122). -/

namespace Sys2Proof.Machine

/-- R122: the effective address is the operand, used as it is. -/
def effectiveAddress (operand : Nat) : Nat := operand

/-- Read the memory operand, then go on with its value. An address above 99 raises AddressOutOfRange before any state
changes (R41, R161). -/
def withOperand (operand : Nat) (s : State) (k : Word → State) : State :=
  match memRead (effectiveAddress operand) s with
  | some w => k w
  | none => raiseFault .addressOutOfRange (effectiveAddress operand) s

end Sys2Proof.Machine
end

