-- ==== Sys2Proof/Machine/Arithmetic.lean ====
section
/-! DEFINITION. ADD and SUBTRACT (spec/41_arithmetic.md rules R111, R112). -/

namespace Sys2Proof.Machine

/-- ADD (R111). -/
def execAdd (a : Nat) (s : State) : Host.Outcome State Fault Refusal :=
  .next (withOperand a s fun m => setAccNeg (aluAdd s.acc m) s)

/-- SUBTRACT (R112): the accumulator is the minuend. -/
def execSubtract (a : Nat) (s : State) : Host.Outcome State Fault Refusal :=
  .next (withOperand a s fun m => setAccNeg (aluSub s.acc m) s)

end Sys2Proof.Machine
end

