-- ==== Sys2Proof/Machine/Control.lean ====
section
/-! DEFINITION. The branches, HALT and the INVALID marker (spec/43_control.md rules R131 to R134, spec/60_exceptions.md rule
R162). -/

namespace Sys2Proof.Machine

/-- BRANCH-ALWAYS (R131). -/
def execBranchAlways (a : Addr) (s : State) : Host.Outcome State Fault Refusal :=
  .next (branchTo a s)

/-- BRANCH-IF-ZERO (R132): the test is on `acc` alone. -/
def execBranchIfZero (a : Addr) (s : State) : Host.Outcome State Fault Refusal :=
  .next (if s.acc = 0 then branchTo a s else s)

/-- BRANCH-IF-POSITIVE (R133): the test is on `neg` alone. -/
def execBranchIfPositive (a : Addr) (s : State) : Host.Outcome State Fault Refusal :=
  .next (if s.neg = false then branchTo a s else s)

/-- HALT (R134). -/
def execHalt (s : State) : Host.Outcome State Fault Refusal :=
  .next (halt s)

/-- INVALID of family 4 (R162). The two digits have no meaning. -/
def execInvalidFamily (_x : Fin 100) (s : State) : Host.Outcome State Fault Refusal :=
  .next (invalidInstruction s)

/-- INVALID of family 9 (R162). -/
def execInvalidSubcode (_ss : Fin 100) (s : State) : Host.Outcome State Fault Refusal :=
  .next (invalidInstruction s)

end Sys2Proof.Machine
end

