-- ==== Sys2Proof/Machine/DataTransfer.lean ====
section
/-! DEFINITION. STORE and LOAD (spec/42_data_transfer.md rules R120, R121). -/

namespace Sys2Proof.Machine

/-- STORE (R120). -/
def execStore (a : Nat) (s : State) : Host.Outcome State Fault Refusal :=
  .next (memWrite (effectiveAddress a) s.acc s)

/-- LOAD (R121): `neg` is not written. -/
def execLoad (a : Nat) (s : State) : Host.Outcome State Fault Refusal :=
  .next (withOperand a s fun m => s.withAcc m)

end Sys2Proof.Machine
end

