-- ==== Sys2Proof/Machine/InputOutput.lean ====
section
/-! DEFINITION. INPUT, INPUT-CHAR, OUTPUT and OUTPUT-CHAR (spec/44_io.md rules R141 to R144). The two inputs end their
execute phase in an input wait; `resume` of Machine/HostPort.lean ends the wait (R94). -/

namespace Sys2Proof.Machine

/-- INPUT (R141). -/
def execInput (s : State) : Host.Outcome State Fault Refusal :=
  .next (await .num s)

/-- INPUT-CHAR (R142). -/
def execInputChar (s : State) : Host.Outcome State Fault Refusal :=
  .next (await .char s)

/-- OUTPUT (R143). -/
def execOutput (s : State) : Host.Outcome State Fault Refusal :=
  .next (emit (.num s.acc) s)

/-- OUTPUT-CHAR (R144): the event holds the accumulator's number for every value (D9). -/
def execOutputChar (s : State) : Host.Outcome State Fault Refusal :=
  .next (emit (.char s.acc) s)

end Sys2Proof.Machine
end

