-- ==== Sys2Proof/Machine/Dispatch.lean ====
section
/-! DEFINITION. Step 4 of the cycle (spec/40_cycle.md rule R86): one arm per instruction. The state is the one after fetch
and increment. -/

namespace Sys2Proof.Machine

def exec (i : Instr) (s : State) : Host.Outcome State Fault Refusal :=
  match i with
  | .halt => Sys2Proof.Machine.execHalt s
  | .add a => Sys2Proof.Machine.execAdd a s
  | .subtract a => Sys2Proof.Machine.execSubtract a s
  | .store a => Sys2Proof.Machine.execStore a s
  | .load a => Sys2Proof.Machine.execLoad a s
  | .branchAlways a => Sys2Proof.Machine.execBranchAlways a s
  | .branchIfZero a => Sys2Proof.Machine.execBranchIfZero a s
  | .branchIfPositive a => Sys2Proof.Machine.execBranchIfPositive a s
  | .input => Sys2Proof.Machine.execInput s
  | .output => Sys2Proof.Machine.execOutput s
  | .inputChar => Sys2Proof.Machine.execInputChar s
  | .outputChar => Sys2Proof.Machine.execOutputChar s
  | .invalidFamily x => Sys2Proof.Machine.execInvalidFamily x s
  | .invalidSubcode ss => Sys2Proof.Machine.execInvalidSubcode ss s

end Sys2Proof.Machine
end

