-- ==== Sys2Proof/Machine/HostPort.lean ====
section
/-! DEFINITION. The host's `reset(image)`, `resume(v)` and `snapshot()` (spec/40_cycle.md section 4, spec/70_reset_and_hazards.md
rules R180 and R182, spec/44_io.md rule R145). -/

namespace Sys2Proof.Machine

/-- R182: the words of an image the core accepts: exactly 100 entries, each in 0..999. -/
def acceptedImage (image : List Int) : Option (List Word) :=
  if image.length = numCells then wordsOfImage image else none

/-- `reset(image)` (R180): a refused image changes nothing. The parameters and the host's further requests are no state
of the core and stay. -/
def hostReset (image : List Int) (s : State) : State :=
  match acceptedImage image with
  | some ws => { State.reset with mem := Memory.ofWords 0 ws, params := s.params, requests := s.requests }
  | none => s

/-- What the host gets back from `reset(image)` (R92). -/
def hostResetReply (image : List Int) : HostReply :=
  match acceptedImage image with
  | some _ => .accepted
  | none => .refused

/-- The instruction kind whose cycle an input wait suspends (R94). -/
def InputKind.instrKind : InputKind → Kind
  | .num => .input
  | .char => .inputChar

/-- `resume(v)` (R94): outside an input wait no effect; a value outside 0..999 changes nothing (R145). -/
def hostResume (v : Int) (s : State) : State :=
  match s.run with
  | .awaitingInput k =>
    match wordOfInt v with
    | some w => complete k.instrKind ((s.withAcc w).withRun .running)
    | none => s
  | .running => s
  | .halted => s
  | .faulted _ => s

/-- What the host gets back from `resume(v)` (R94, R145). -/
def hostResumeReply (v : Int) (s : State) : HostReply :=
  match s.run with
  | .awaitingInput _ =>
    match wordOfInt v with
    | some _ => .accepted
    | none => .invalidInput v
  | .running => .nothing
  | .halted => .nothing
  | .faulted _ => .nothing

/-- The halted flag, derived from the run state (R26). -/
def State.halted (s : State) : Bool := decide (s.run = .halted)

/-- `snapshot()` (R95): `ir` and `eom` are not in it. -/
def hostSnapshot (s : State) : Snapshot where
  mem := s.mem.cells
  acc := s.acc
  pc := s.pc
  neg := s.neg
  halted := s.halted
  run := s.run
  out := s.out

/-- R96: the output since a snapshot that showed `seen` events, as the host computes it. -/
def Snapshot.outSince (view : Snapshot) (seen : Nat) : List OutEvent := view.out.drop seen

/-- What the host gets back from each operation (R92). -/
def hostReply (q : HostRequest) (s : State) : HostReply :=
  match q with
  | .reset image => hostResetReply image
  | .step => .nothing
  | .resume v => hostResumeReply v s
  | .snapshot => .snapshot (hostSnapshot s)

end Sys2Proof.Machine
end

