-- ==== Sys2Proof/Machine/Cycle.lean ====
section
/-! DEFINITION. One cycle (spec/40_cycle.md rule R88), the host's `step()` (R93) and the host's four operations as one
function (R92). -/

namespace Sys2Proof.Machine

/-- The instruction the next cycle runs: the decoded cell at `pc` (R83, R85). -/
def fetchedInstr (s : State) : Instr := decode s.params.ext911 (s.mem.read s.pc.val)

/-- `cycle()` (R88): fetch and increment, execute, complete. -/
def cycle (s : State) : Host.Outcome State Fault Refusal :=
  match exec (fetchedInstr s) (fetch s) with
  | .next t => .next (completeUnlessStopped (fetchedInstr s).kind t)
  | .fault r => .fault r
  | .refused r => .refused r

/-- `step()` (R93): a cycle when `Running`, otherwise nothing. -/
def hostStep (s : State) : Host.Outcome State Fault Refusal :=
  match s.run with
  | .running => cycle s
  | .awaitingInput _ => .next s
  | .halted => .next s
  | .faulted _ => .next s

/-- The effect of one host operation on the core (R92). `snapshot()` has none (R95). -/
def transact (q : HostRequest) (s : State) : Host.Outcome State Fault Refusal :=
  match q with
  | .reset image => .next (hostReset image s)
  | .step => hostStep s
  | .resume v => .next (hostResume v s)
  | .snapshot => .next s

/-- The host's next request: the oldest pending one, and `step()` when none is pending. -/
def nextRequest (s : State) : HostRequest :=
  match s.requests with
  | [] => .step
  | q :: _ => q

/-- The state once the host's next request is taken from the pending ones. -/
def takeRequest (s : State) : State := s.withRequests s.requests.tail

/-- `s` with the word `w` in the cell that the next step fetches, ready to run a cycle (rules R40, R82). A number that is
no `Word` fits no cell and leaves the cell as it is. -/
def placeFetchWord (s : State) (w : Nat) : State :=
  let ready := (s.withRun .running).withRequests []
  if h : w < 1000 then ready.withMem (s.mem.write s.pc.val ⟨w, h⟩) else ready

end Sys2Proof.Machine
end

