-- ==== Sys2Proof/Machine/Step.lean ====
section
/-! DEFINITION. One step of the machine is one operation of the host on the core (spec/40_cycle.md rule R92): the next
pending request, or `step()`, which runs one cycle (R93). -/

namespace Sys2Proof.Machine

/-- One step: take the host's next request and carry it out. -/
def step (s : State) : Host.Outcome State Fault Refusal := transact (nextRequest s) (takeRequest s)

/-- `s` with the word `w` where the next step fetches its instruction. -/
def State.withFetchWord (s : State) (_nbits w : Nat) : State := placeFetchWord s w

end Sys2Proof.Machine
end

