-- ==== Sys2Proof/Safety.lean ====
section
/-! DEFINITION. What the claims mean by a state that runs a cycle, an end of a run, a safe state, the run-state table and
the machine's invariant (spec/40_cycle.md rules R81, R89 and R98, spec/10_state.md rule R31). -/

namespace Sys2Proof.Machine

/-- The next step runs one cycle: the core is `Running` and the host's next operation is `step()` (R82; the
model's list of the host's operations is notes/assumptions/1.md). -/
def State.runsCycle (s : State) : Prop := s.run = .running ∧ nextRequest s = .step

/-- The two final run states (R98). -/
def RunState.final : RunState → Bool
  | .running => false
  | .awaitingInput _ => false
  | .halted => true
  | .faulted _ => true

/-- A safe state is not stopped by a fault. -/
def State.safe (s : State) : Prop := ∀ r, s.run ≠ .faulted r

/-- The instruction, run in `s`, takes a branch to the address named (R130 to R133). -/
def takenTarget (s : State) : Instr → Option Addr
  | .branchAlways a => some a
  | .branchIfZero a => if s.acc = 0 then some a else none
  | .branchIfPositive a => if s.neg = false then some a else none
  | .halt => none
  | .add _ => none
  | .subtract _ => none
  | .store _ => none
  | .load _ => none
  | .input => none
  | .output => none
  | .inputChar => none
  | .outputChar => none
  | .invalidFamily _ => none
  | .invalidSubcode _ => none

/-- R89: the fetched instruction, run in `s`, completes in its own cycle without taking a branch and without halting,
faulting or waiting for input. -/
def fallsThrough (s : State) : Instr → Bool
  | .add _ => true
  | .subtract _ => true
  | .store _ => true
  | .load _ => true
  | .output => true
  | .outputChar => true
  | .branchIfZero _ => decide (s.acc ≠ 0)
  | .branchIfPositive _ => s.neg
  | .branchAlways _ => false
  | .halt => false
  | .input => false
  | .inputChar => false
  | .invalidFamily _ => false
  | .invalidSubcode _ => false

/-- The rows of R81 for `step` in `Running`: the run state in which the cycle of the fetched instruction ends, by the event
that the row names. End-of-memory is the event of an instruction that falls through from 99 (R89); a fault's record is
that of R160. -/
def runStateAfterCycle (s : State) : RunState :=
  match (fetchedInstr s).kind with
  | .halt => .halted
  | .invalid =>
    match s.params.invalidPolicy with
    | .halt => .halted
    | .fault => .faulted ⟨.invalidInstruction, s.pc, (s.mem.read s.pc.val).val⟩
  | .input => .awaitingInput .num
  | .inputChar => .awaitingInput .char
  | .add | .subtract | .store | .load | .output | .outputChar | .branchAlways | .branchIfZero | .branchIfPositive =>
    if s.pc.val = 99 ∧ fallsThrough s (fetchedInstr s) = true then .halted else .running

/-- The table of R81: the one run state to which the host operation `q` takes the core from `s`. -/
def runStateAfter (q : HostRequest) (s : State) : RunState :=
  match q, s.run with
  | .step, .running => runStateAfterCycle s
  | .step, .awaitingInput k => .awaitingInput k
  | .step, .halted => .halted
  | .step, .faulted r => .faulted r
  | .resume v, .awaitingInput k =>
    if 0 ≤ v ∧ v ≤ 999 then (if s.eom = true then .halted else .running) else .awaitingInput k
  | .resume _, .running => .running
  | .resume _, .halted => .halted
  | .resume _, .faulted r => .faulted r
  | .reset image, r => if image.length = 100 ∧ ∀ v ∈ image, 0 ≤ v ∧ v ≤ 999 then .running else r
  | .snapshot, r => r

/-- What every step keeps, of every state a run can reach. -/
structure State.Inv (s : State) : Prop where
  /-- R31, R40: 100 cells, each a `Word`, in the model's canonical form (notes/assumptions/3.md). -/
  memCanonical : s.mem.wf = true
  /-- R29: between cycles the latch is set only in an input wait or a fault of the instruction fetched from 99, whose
  increment left `pc` at 0. -/
  latchStopped : s.eom = true → s.pc = 0 ∧ ((∃ k, s.run = .awaitingInput k) ∨ ∃ r, s.run = .faulted r)
  /-- R141, R142: a wait for input was entered by the input instruction of its kind, which `ir` still holds. -/
  waitOfInput : ∀ k, s.run = .awaitingInput k → (decode s.params.ext911 s.ir).kind = k.instrKind
  /-- R161, R162: no run reaches AddressOutOfRange; a fault is that of the invalid word in `ir`, and `pc` is the address
  after it. -/
  faultOfInvalid : ∀ r, s.run = .faulted r →
    r.kind = .invalidInstruction ∧ s.params.invalidPolicy = .fault ∧ r.info = s.ir.val ∧ s.pc = nextPc r.faultPc ∧
      (decode s.params.ext911 s.ir).kind = .invalid

end Sys2Proof.Machine
end

