-- ==== Sys2Proof/Certificates/Slice0/Obligations.lean ====
section
/-! DEFINITION. The statements for the provers. A next state written `{ s with … }` is the whole frame: every field that is
not named keeps its value. -/

open Sys2Proof Sys2Proof.Machine

/-! ### Decoder and encoder -/

/-- R60 to R64: every well-formed instruction is read back from its word, at every operand. -/
def Obligations.DecodeOfEncodeIsTheInstruction : Prop :=
  ∀ (ext : Ext911) (i : Instr), i.wellFormed ext = true → decode ext (encode i) = i

/-- R62: each word of 100 to 999 is read back from the instruction it decodes to; the words 0 to 99 are all HALT. -/
def Obligations.EncodeOfDecodeIsTheWord : Prop :=
  ∀ (ext : Ext911) (w : Word),
    (100 ≤ w.val → encode (decode ext w) = w) ∧ (w.val < 100 → decode ext w = .halt)

/-- R61: every word decodes to a well-formed instruction, so no decoded memory operand is above 99. -/
def Obligations.DecodedInstructionsAreWellFormed : Prop :=
  ∀ (ext : Ext911) (w : Word),
    (decode ext w).wellFormed ext = true ∧
    ∀ a : Nat, (decode ext w = .add a ∨ decode ext w = .subtract a ∨ decode ext w = .store a ∨ decode ext w = .load a) →
      a ≤ 99

/-- R62: the decoder, family by family, and family 9 sub-code by sub-code. -/
def Obligations.DecoderFollowsTheFamilies : Prop :=
  ∀ (ext : Ext911) (w : Word) (a : Fin 100), a.val = w.val % 100 →
    (w.val / 100 = 0 → decode ext w = .halt) ∧
    (w.val / 100 = 1 → decode ext w = .add a.val) ∧
    (w.val / 100 = 2 → decode ext w = .subtract a.val) ∧
    (w.val / 100 = 3 → decode ext w = .store a.val) ∧
    (w.val / 100 = 4 → decode ext w = .invalidFamily a) ∧
    (w.val / 100 = 5 → decode ext w = .load a.val) ∧
    (w.val / 100 = 6 → decode ext w = .branchAlways a) ∧
    (w.val / 100 = 7 → decode ext w = .branchIfZero a) ∧
    (w.val / 100 = 8 → decode ext w = .branchIfPositive a) ∧
    (w.val / 100 = 9 →
      (a.val = 1 → decode ext w = .input) ∧
      (a.val = 2 → decode ext w = .output) ∧
      (a.val = 11 → ext = .inputChar → decode ext w = .inputChar) ∧
      (a.val = 11 → ext = .invalid → decode ext w = .invalidSubcode a) ∧
      (a.val = 22 → decode ext w = .outputChar) ∧
      (a.val ≠ 1 → a.val ≠ 2 → a.val ≠ 11 → a.val ≠ 22 → decode ext w = .invalidSubcode a))

/-- R67: the first row of the opcode table that a word matches names the kind the decoder gives. -/
def Obligations.DecoderAgreesWithTheOpcodeTable : Prop :=
  ∀ (ext : Ext911) (w : Word), tableKind ext w = some (decode ext w).kind

/-- R63: how many of the 1000 words decode to each kind. -/
def Obligations.DecodedWordCounts : Prop :=
  ∀ ext : Ext911,
    let count : Kind → Nat := fun k => ((List.finRange 1000).filter fun w => decide ((decode ext w).kind = k)).length
    count .halt = 100 ∧ count .add = 100 ∧ count .subtract = 100 ∧ count .store = 100 ∧ count .load = 100 ∧
    count .branchAlways = 100 ∧ count .branchIfZero = 100 ∧ count .branchIfPositive = 100 ∧
    count .input = 1 ∧ count .output = 1 ∧ count .outputChar = 1 ∧
    count .inputChar = (if ext = .inputChar then 1 else 0) ∧
    count .invalid = (if ext = .inputChar then 196 else 197)

/-- The words of 95_test_vectors.md section 2.1: one of every kind, and the neighbours of the I/O sub-codes. -/
def Obligations.SampleWordsDecode : Prop :=
  decode .inputChar 0 = .halt ∧ decode .inputChar 42 = .halt ∧ decode .inputChar 99 = .halt ∧
  decode .inputChar 100 = .add 0 ∧ decode .inputChar 199 = .add 99 ∧ decode .inputChar 250 = .subtract 50 ∧
  decode .inputChar 300 = .store 0 ∧ decode .inputChar 399 = .store 99 ∧ decode .inputChar 450 = .invalidFamily 50 ∧
  decode .inputChar 599 = .load 99 ∧ decode .inputChar 699 = .branchAlways 99 ∧ decode .inputChar 700 = .branchIfZero 0 ∧
  decode .inputChar 899 = .branchIfPositive 99 ∧ decode .inputChar 900 = .invalidSubcode 0 ∧
  decode .inputChar 901 = .input ∧ decode .inputChar 902 = .output ∧ decode .inputChar 903 = .invalidSubcode 3 ∧
  decode .inputChar 911 = .inputChar ∧ decode .invalid 911 = .invalidSubcode 11 ∧ decode .inputChar 922 = .outputChar ∧
  decode .inputChar 923 = .invalidSubcode 23 ∧ decode .inputChar 999 = .invalidSubcode 99

/-! ### Memory -/

/-- R42: a write to an address 0..99 changes that one cell, and a write above 99 raises AddressOutOfRange and changes no
cell. -/
def Obligations.MemWriteChangesOneCellOrFaults : Prop :=
  ∀ (a : Nat) (v : Word) (s : State),
    (a ≤ 99 → ∃ m, memWrite a v s = { s with mem := m } ∧ m.read a = v ∧ ∀ b, b ≠ a → m.read b = s.mem.read b) ∧
    (99 < a → memWrite a v s = { s with run := .faulted ⟨.addressOutOfRange, fetchPc s, a⟩ })

/-- R41 with decision D12: a read of an address 0..99 gives the cell, and an access above 99 raises AddressOutOfRange
before the instruction goes on. -/
def Obligations.MemReadGivesTheCellOrFaults : Prop :=
  ∀ (a : Nat) (s : State),
    (a ≤ 99 → memRead a s = some (s.mem.read a) ∧ ∀ k : Word → State, withOperand a s k = k (s.mem.read a)) ∧
    (99 < a → memRead a s = none ∧
      ∀ k : Word → State, withOperand a s k = { s with run := .faulted ⟨.addressOutOfRange, fetchPc s, a⟩ })

/-- The canonical form of notes/assumptions/3.md, the model's choice: memories with the same 100 cells are the same
data. -/
def Obligations.EqualCellsMakeEqualMemories : Prop :=
  ∀ m m' : Memory, m.wf = true → m'.wf = true → (∀ a, a ≤ 99 → m.read a = m'.read a) → m = m'

/-! ### Arithmetic -/

/-- R110: both ALU operations, from the exact raw result. -/
def Obligations.AluNormalisesTheRawResult : Prop :=
  ∀ x y : Word,
    (999 < x.val + y.val → (aluAdd x y).1.val = x.val + y.val - 1000 ∧ (aluAdd x y).2 = true) ∧
    (x.val + y.val ≤ 999 → (aluAdd x y).1.val = x.val + y.val ∧ (aluAdd x y).2 = false) ∧
    ((x.val : Int) - y.val < 0 → ((aluSub x y).1.val : Int) = x.val - y.val + 1000 ∧ (aluSub x y).2 = true) ∧
    (0 ≤ (x.val : Int) - y.val → ((aluSub x y).1.val : Int) = x.val - y.val ∧ (aluSub x y).2 = false)

/-- R113, laws 2 and 3: ADD and SUBTRACT are exact modulo 1000, and the flag is set exactly when the raw result falls
outside 0..999. -/
def Obligations.ArithmeticWrapsModuloOneThousand : Prop :=
  ∀ (a : Nat) (s : State), a ≤ 99 →
    (∃ t, exec (.add a) s = .next t ∧
      t.acc.val = (s.acc.val + (s.mem.read a).val) % 1000 ∧
      (t.neg = true ↔ ¬ (s.acc.val + (s.mem.read a).val ≤ 999))) ∧
    (∃ t, exec (.subtract a) s = .next t ∧
      (t.acc.val : Int) = ((s.acc.val : Int) - (s.mem.read a).val) % 1000 ∧
      (t.neg = true ↔ ¬ (0 ≤ (s.acc.val : Int) - (s.mem.read a).val)))

/-- R111: ADD's words, its result and flag and nothing else written, and its fault above 99. -/
def Obligations.AddResult : Prop :=
  (∀ (ext : Ext911) (w : Word), w.val / 100 = 1 → decode ext w = .add (w.val % 100)) ∧
  ∀ (a : Nat) (s : State),
    (a ≤ 99 → ∃ t, exec (.add a) s = .next t ∧ t = { s with acc := t.acc, neg := t.neg } ∧
      (s.acc.val + (s.mem.read a).val ≤ 999 → t.acc.val = s.acc.val + (s.mem.read a).val ∧ t.neg = false) ∧
      (999 < s.acc.val + (s.mem.read a).val → t.acc.val = s.acc.val + (s.mem.read a).val - 1000 ∧ t.neg = true)) ∧
    (99 < a → exec (.add a) s = .next { s with run := .faulted ⟨.addressOutOfRange, fetchPc s, a⟩ })

/-- R112: SUBTRACT's words, its result and flag and nothing else written, and its fault above 99. -/
def Obligations.SubtractResult : Prop :=
  (∀ (ext : Ext911) (w : Word), w.val / 100 = 2 → decode ext w = .subtract (w.val % 100)) ∧
  ∀ (a : Nat) (s : State),
    (a ≤ 99 → ∃ t, exec (.subtract a) s = .next t ∧ t = { s with acc := t.acc, neg := t.neg } ∧
      ((s.mem.read a).val ≤ s.acc.val → t.acc.val + (s.mem.read a).val = s.acc.val ∧ t.neg = false) ∧
      (s.acc.val < (s.mem.read a).val → t.acc.val + (s.mem.read a).val = s.acc.val + 1000 ∧ t.neg = true)) ∧
    (99 < a → exec (.subtract a) s = .next { s with run := .faulted ⟨.addressOutOfRange, fetchPc s, a⟩ })

/-! ### Data transfer -/

/-- R120: STORE's words; it writes `acc` to the one cell at its effective address and nothing else, faults above 99, and
under `Preserve` its completion keeps `neg`. -/
def Obligations.StoreResult : Prop :=
  (∀ (ext : Ext911) (w : Word), w.val / 100 = 3 → decode ext w = .store (w.val % 100)) ∧
  ∀ (a : Nat) (s : State),
    (a ≤ 99 → ∃ t, exec (.store a) s = .next t ∧ t = { s with mem := t.mem } ∧
      t.mem.read (effectiveAddress a) = s.acc ∧ effectiveAddress a = a ∧
      ∀ b, b ≠ effectiveAddress a → t.mem.read b = s.mem.read b) ∧
    (99 < a → exec (.store a) s = .next { s with run := .faulted ⟨.addressOutOfRange, fetchPc s, a⟩ }) ∧
    (s.params.negFrame = .preserve → (complete (Instr.store a).kind s).neg = s.neg)

/-- R121: LOAD's words; it writes the cell to `acc` and nothing else, and its completion keeps `neg` under both values of
P_NEG_FRAME. -/
def Obligations.LoadResult : Prop :=
  (∀ (ext : Ext911) (w : Word), w.val / 100 = 5 → decode ext w = .load (w.val % 100)) ∧
  ∀ (a : Nat) (s : State),
    (a ≤ 99 → exec (.load a) s = .next { s with acc := s.mem.read a }) ∧
    (99 < a → exec (.load a) s = .next { s with run := .faulted ⟨.addressOutOfRange, fetchPc s, a⟩ }) ∧
    (complete (Instr.load a).kind s).neg = s.neg

/-- R161: a memory access above 99 goes to `Faulted((AddressOutOfRange, fetch_pc, a))` and changes nothing else, for each of
the four instructions that reach memory, injected after a fetch from `p`; and a cycle, which fetches its word from memory,
never reaches this fault. -/
def Obligations.AccessAboveTheMemoryFaults : Prop :=
  (∀ (a : Nat) (p : Addr) (s : State), 99 < a → s.pc = nextPc p →
    ∀ i : Instr, (i = .add a ∨ i = .subtract a ∨ i = .store a ∨ i = .load a) →
      exec i s = .next { s with run := .faulted ⟨.addressOutOfRange, p, a⟩ }) ∧
  ∀ (s t : State) (r : FaultRecord), s.runsCycle → step s = .next t → t.run = .faulted r → r.kind ≠ .addressOutOfRange

/-! ### Control transfer -/

/-- R131: BRANCH-ALWAYS's words; it writes `pc`, which clears `eom`, and nothing else. -/
def Obligations.BranchAlwaysResult : Prop :=
  (∀ (ext : Ext911) (w : Word) (a : Addr), w.val = 600 + a.val → decode ext w = .branchAlways a) ∧
  ∀ (a : Addr) (s : State), exec (.branchAlways a) s = .next { s with pc := a, eom := false }

/-- R132: BRANCH-IF-ZERO's words; it tests `acc` alone, whatever `neg` holds. -/
def Obligations.BranchIfZeroResult : Prop :=
  (∀ (ext : Ext911) (w : Word) (a : Addr), w.val = 700 + a.val → decode ext w = .branchIfZero a) ∧
  ∀ (a : Addr) (s : State),
    (s.acc.val = 0 → exec (.branchIfZero a) s = .next { s with pc := a, eom := false }) ∧
    (s.acc.val ≠ 0 → exec (.branchIfZero a) s = .next s)

/-- R133: BRANCH-IF-POSITIVE's words; it tests `neg` alone, whatever `acc` holds. -/
def Obligations.BranchIfPositiveResult : Prop :=
  (∀ (ext : Ext911) (w : Word) (a : Addr), w.val = 800 + a.val → decode ext w = .branchIfPositive a) ∧
  ∀ (a : Addr) (s : State),
    (s.neg = false → exec (.branchIfPositive a) s = .next { s with pc := a, eom := false }) ∧
    (s.neg = true → exec (.branchIfPositive a) s = .next s)

/-- R134: every word 000 to 099 is HALT, which writes the run state alone; the cycle that runs it leaves `pc` at the
address after it, also from 99. -/
def Obligations.HaltResult : Prop :=
  (∀ (ext : Ext911) (w : Word), w.val ≤ 99 → decode ext w = .halt) ∧
  (∀ s : State, exec .halt s = .next { s with run := .halted }) ∧
  ∀ s : State, s.runsCycle → (s.mem.read s.pc.val).val ≤ 99 →
    ∃ t, step s = .next t ∧ t.run = .halted ∧ t.pc.val = (s.pc.val + 1) % 100 ∧
      t.mem = s.mem ∧ t.acc = s.acc ∧ t.out = s.out ∧
      (s.params.negFrame = .preserve → t.neg = s.neg) ∧ (s.params.negFrame = .clearOnOthers → t.neg = false)

/-- R114: after an ADD whose raw sum is exactly 1000 the accumulator is zero with the flag set, so BRANCH-IF-ZERO
branches and BRANCH-IF-POSITIVE does not. -/
def Obligations.SumOfOneThousandBranchesOnZeroOnly : Prop :=
  ∀ (s : State) (a : Nat) (b c : Addr), a ≤ 99 → s.acc.val + (s.mem.read a).val = 1000 →
    ∃ t, exec (.add a) s = .next t ∧ t.acc.val = 0 ∧ t.neg = true ∧
      exec (.branchIfZero b) t = .next { t with pc := b, eom := false } ∧
      exec (.branchIfPositive c) t = .next t

/-! ### Input and output -/

/-- R141: INPUT suspends its cycle in a numeric wait and writes nothing else; a value of 0..999 then reaches `acc`. -/
def Obligations.InputWaitsForANumber : Prop :=
  ∀ s : State,
    (∀ ext, decode ext 901 = .input) ∧
    exec .input s = .next { s with run := .awaitingInput .num } ∧
    ∀ v : Int, 0 ≤ v → v ≤ 999 →
      ∃ u, transact (.resume v) { s with run := .awaitingInput .num } = .next u ∧ (u.acc.val : Int) = v ∧
        u.mem = s.mem ∧ u.pc = s.pc ∧ u.out = s.out

/-- R142 with decisions D7 and D8: INPUT-CHAR, present under `InputChar`, suspends its cycle in a character wait, and a code
point of 0..999 then reaches `acc`. That the injected instruction waits under `Invalid` too is the model's own choice
(notes/assumptions/18.md): R142 says that it is absent there, and no word decodes to it. -/
def Obligations.InputCharWaitsForACharacter : Prop :=
  ∀ s : State,
    decode .inputChar 911 = .inputChar ∧
    exec .inputChar s = .next { s with run := .awaitingInput .char } ∧
    ∀ v : Int, 0 ≤ v → v ≤ 999 →
      ∃ u, transact (.resume v) { s with run := .awaitingInput .char } = .next u ∧ (u.acc.val : Int) = v ∧
        u.mem = s.mem ∧ u.pc = s.pc ∧ u.out = s.out

/-- R143: OUTPUT appends the accumulator's number to the log and writes nothing else. -/
def Obligations.OutputAppendsTheNumber : Prop :=
  (∀ ext, decode ext 902 = .output) ∧
  ∀ s : State, exec .output s = .next { s with out := s.out ++ [.num s.acc] }

/-- R144 with decision D9: OUTPUT-CHAR appends a character event holding the accumulator's number, for every value. -/
def Obligations.OutputCharAppendsTheCharacter : Prop :=
  (∀ ext, decode ext 922 = .outputChar) ∧
  ∀ s : State, exec .outputChar s = .next { s with out := s.out ++ [.char s.acc] }

/-- R145: a value outside 0..999 is reported as InvalidInput and changes no state; the wait goes on. -/
def Obligations.RejectedInputChangesNothing : Prop :=
  ∀ (s : State) (k : InputKind) (v : Int), s.run = .awaitingInput k → (v < 0 ∨ 999 < v) →
    transact (.resume v) s = .next s ∧ hostReply (.resume v) s = .invalidInput v

/-- R94 with decision D8: an accepted value is written to `acc`, the run goes on (or halts at a pending end-of-memory), and
completion treats `neg` as for INPUT and INPUT-CHAR. -/
def Obligations.ResumeDeliversTheValue : Prop :=
  ∀ (s : State) (k : InputKind) (v : Int), s.run = .awaitingInput k → 0 ≤ v → v ≤ 999 →
    ∃ t, transact (.resume v) s = .next t ∧ hostReply (.resume v) s = .accepted ∧
      t = { s with acc := t.acc, run := t.run, neg := t.neg, eom := false } ∧
      (t.acc.val : Int) = v ∧
      (s.eom = false → t.run = .running) ∧ (s.eom = true → t.run = .halted) ∧
      (s.params.negFrame = .preserve → t.neg = s.neg) ∧ (s.params.negFrame = .clearOnOthers → t.neg = false)

/-- R141's corner case with decision D5: an INPUT fetched from 99 suspends with `pc = 0`, and halts there once a value is
accepted. -/
def Obligations.InputFromTheLastCellHaltsAfterResume : Prop :=
  ∀ s : State, s.runsCycle → s.pc.val = 99 → (s.mem.read 99).val = 901 →
    ∃ t, step s = .next t ∧ t.run = .awaitingInput .num ∧ t.pc.val = 0 ∧ t.acc = s.acc ∧ t.eom = true ∧
      ∀ v : Int, 0 ≤ v → v ≤ 999 →
        ∃ u, transact (.resume v) t = .next u ∧ (u.acc.val : Int) = v ∧ u.run = .halted ∧ u.pc.val = 0

/-! ### Invalid instructions -/

/-- R162 with decision D6: each INVALID instruction halts under the policy `Halt`, and under `Fault` raises
InvalidInstruction with the fetched word; nothing else is written. -/
def Obligations.InvalidHaltsOrFaults : Prop :=
  ∀ (i : Instr) (s : State), i.kind = .invalid →
    (s.params.invalidPolicy = .halt → exec i s = .next { s with run := .halted }) ∧
    (s.params.invalidPolicy = .fault →
      exec i s = .next { s with run := .faulted ⟨.invalidInstruction, fetchPc s, s.ir.val⟩ })

/-- R162 and R164 with decisions D5, D6 and D21: the cycle that fetches an INVALID word, also from 99. -/
def Obligations.InvalidWordEndsTheRun : Prop :=
  ∀ s : State, s.runsCycle → (fetchedInstr s).kind = .invalid →
    ∃ t, step s = .next t ∧ t.pc.val = (s.pc.val + 1) % 100 ∧ t.mem = s.mem ∧ t.acc = s.acc ∧ t.out = s.out ∧
      (s.params.invalidPolicy = .halt → t.run = .halted) ∧
      (s.params.invalidPolicy = .fault →
        t.run = .faulted ⟨.invalidInstruction, s.pc, (s.mem.read s.pc.val).val⟩ ∧ t.neg = s.neg)

/-! ### The cycle -/

/-- R83 to R88: a step that runs a cycle is execute, of the instruction the cell at `pc` decodes to, between the fetch with
its increment and the completion, which runs unless execute ended in a fault or an input wait. -/
def Obligations.StepRunsTheDecodedInstruction : Prop :=
  ∀ (s : State) (i : Instr), s.run = .running → s.requests = [] →
    decode s.params.ext911 (s.mem.read s.pc.val) = i →
    ∃ t, exec i { s with ir := s.mem.read s.pc.val, eom := decide (s.pc.val = 99), pc := nextPc s.pc } = .next t ∧
      (t.run = .running ∨ t.run = .halted → step s = .next (complete i.kind t)) ∧
      ((∃ k, t.run = .awaitingInput k) ∨ (∃ r, t.run = .faulted r) → step s = .next t)

/-- The model's own convention of notes/assumptions/1.md: the host's pending requests are taken one a step, oldest first,
and with none pending the request is `step()`. -/
def Obligations.PendingRequestsAreTakenInOrder : Prop :=
  ∀ s : State,
    (s.requests = [] → step s = transact .step s) ∧
    ∀ q rest, s.requests = q :: rest → step s = transact q { s with requests := rest }

/-- Every step of every state answers a next state (R81: each operation in each run state has its row). -/
def Obligations.EveryStepAnswersANextState : Prop :=
  ∀ s : State, ∃ t, step s = .next t

/-- R87 with decision D4: what a cycle does to the negative flag, under each value of P_NEG_FRAME. -/
def Obligations.NegativeFlagAfterACycle : Prop :=
  ∀ s : State, s.runsCycle →
    ∃ t, step s = .next t ∧
      ((fetchedInstr s).kind = .load → t.neg = s.neg) ∧
      (s.params.negFrame = .preserve → (fetchedInstr s).kind ≠ .add → (fetchedInstr s).kind ≠ .subtract →
        t.neg = s.neg) ∧
      (s.params.negFrame = .clearOnOthers → (fetchedInstr s).kind ≠ .add → (fetchedInstr s).kind ≠ .subtract →
        (fetchedInstr s).kind ≠ .load → (t.run = .running ∨ t.run = .halted) → t.neg = false) ∧
      ((∃ k, t.run = .awaitingInput k) ∨ (∃ r, t.run = .faulted r) → t.neg = s.neg)

/-- R23 and R84 with decision D5: after a cycle `pc` is the taken branch's target, else the address after the fetched one,
going round from 99 to 0. -/
def Obligations.ProgramCounterAfterACycle : Prop :=
  ∀ s : State, s.runsCycle →
    ∃ t, step s = .next t ∧
      (∀ a, takenTarget s (fetchedInstr s) = some a → t.pc = a ∧ t.run = .running) ∧
      (takenTarget s (fetchedInstr s) = none → t.pc.val = (s.pc.val + 1) % 100)

/-- R89 with decision D5: an instruction fetched from 99 that falls through ends in `Halted` with `pc` at 0; fetched from
any other cell it leaves the core `Running`. -/
def Obligations.EndOfMemoryHaltsAtZero : Prop :=
  ∀ s : State, s.runsCycle → fallsThrough s (fetchedInstr s) = true →
    ∃ t, step s = .next t ∧
      (s.pc.val = 99 → t.run = .halted ∧ t.pc.val = 0) ∧
      (s.pc.val ≠ 99 → t.run = .running ∧ t.pc.val = s.pc.val + 1)

/-- R21 with conflict C3: which cycle or operation writes the accumulator. -/
def Obligations.OnlyNamedWritersChangeTheAccumulator : Prop :=
  ∀ (q : HostRequest) (s t : State), transact q s = .next t → t.acc ≠ s.acc →
    (q = .step ∧ s.run = .running ∧
      ((fetchedInstr s).kind = .add ∨ (fetchedInstr s).kind = .subtract ∨ (fetchedInstr s).kind = .load)) ∨
    (∃ v k, q = .resume v ∧ s.run = .awaitingInput k) ∨ ∃ image, q = .reset image

/-- R43: a cycle changes no cell but the one that a STORE it runs names, which then holds `acc`; no other operation but
`reset` changes a cell. -/
def Obligations.ACycleChangesAtMostTheStoredCell : Prop :=
  ∀ (q : HostRequest) (s t : State) (b : Nat), transact q s = .next t → t.mem.read b ≠ s.mem.read b →
    (q = .step ∧ s.run = .running ∧ fetchedInstr s = .store b ∧ t.mem.read b = s.acc) ∨ ∃ image, q = .reset image

/-- R51 and R185 with decision D17: the fetch after a STORE sees the stored word in the cell it names, and the STORE itself
keeps its own fetched word. -/
def Obligations.StoreIsSeenByTheNextFetch : Prop :=
  ∀ (s : State) (a : Nat), s.runsCycle → fetchedInstr s = .store a →
    ∃ t, step s = .next t ∧ t.ir = s.mem.read s.pc.val ∧
      (fetch t).ir = if t.pc.val = a then s.acc else s.mem.read t.pc.val

/-- R27, R140, R143 and R144 with decision D31: the log grows by exactly the event of the OUTPUT or OUTPUT-CHAR that a cycle
runs, and only `reset` shortens it. -/
def Obligations.OutputLogGrowsByTheCyclesEvent : Prop :=
  ∀ (q : HostRequest) (s t : State), transact q s = .next t → (∀ image, q ≠ .reset image) →
    (q = .step → s.run = .running → (fetchedInstr s).kind = .output → t.out = s.out ++ [.num s.acc]) ∧
    (q = .step → s.run = .running → (fetchedInstr s).kind = .outputChar → t.out = s.out ++ [.char s.acc]) ∧
    ((q ≠ .step ∨ s.run ≠ .running ∨
      ((fetchedInstr s).kind ≠ .output ∧ (fetchedInstr s).kind ≠ .outputChar)) → t.out = s.out)

/-- R28 with decision D33: no operation's effect or reply depends on the word that the working register held before, and
nothing but that register shows it. -/
def Obligations.WorkingRegisterIsNeverObserved : Prop :=
  ∀ (q : HostRequest) (s : State) (w : Word),
    hostReply q { s with ir := w } = hostReply q s ∧
    ∃ t u, transact q s = .next t ∧ transact q { s with ir := w } = .next u ∧ u = { t with ir := u.ir } ∧
      (q = .step → s.run = .running → u = t)

/-! ### Faults, halts and the run state -/

/-- R167 with decisions D20 and D32: when an instruction faults, nothing but the run state is written, and the record names
the address before `pc`. -/
def Obligations.FaultsArePrecise : Prop :=
  ∀ (i : Instr) (s t : State) (p : Addr) (r : FaultRecord),
    exec i s = .next t → s.pc = nextPc p → s.run = .running → t.run = .faulted r →
      t = { s with run := .faulted r } ∧ r.faultPc = p

/-- R163: the three causes of `Halted` and the faults of R160 are the only events that stop the core, and each does. In a
cycle, from a fetched word; outside one, only end-of-memory at the completion of an accepted input; and in execute alone, of
any decoded instruction, the faults of R160 and no other. -/
def Obligations.OnlyTheNamedCausesStopTheCore : Prop :=
  (∀ (q : HostRequest) (s t : State), transact q s = .next t →
    (q = .step → s.run = .running →
      (t.run = .halted ↔
        (fetchedInstr s).kind = .halt ∨
        ((fetchedInstr s).kind = .invalid ∧ s.params.invalidPolicy = .halt) ∨
        (s.pc.val = 99 ∧ fallsThrough s (fetchedInstr s) = true)) ∧
      ∀ r, (t.run = .faulted r ↔
        (fetchedInstr s).kind = .invalid ∧ s.params.invalidPolicy = .fault ∧
          r = ⟨.invalidInstruction, s.pc, (s.mem.read s.pc.val).val⟩)) ∧
    ((q ≠ .step ∨ s.run ≠ .running) → t.run ≠ s.run →
      (t.run = .halted ↔
        ∃ k v, s.run = .awaitingInput k ∧ q = .resume v ∧ 0 ≤ v ∧ v ≤ 999 ∧ s.eom = true) ∧
      ∀ r, t.run ≠ .faulted r)) ∧
  ∀ (i : Instr) (s t : State) (r : FaultRecord), exec i s = .next t → s.run = .running → t.run = .faulted r →
    (r.kind = .invalidInstruction ∧ i.kind = .invalid ∧ s.params.invalidPolicy = .fault ∧ r.info = s.ir.val) ∨
    (r.kind = .addressOutOfRange ∧ 99 < r.info ∧
      (i = .add r.info ∨ i = .subtract r.info ∨ i = .store r.info ∨ i = .load r.info))

/-- R160 and R162 with decision D6: under the policy `Halt` no step leads from a state without a fault to a fault. -/
def Obligations.UnderTheHaltPolicyNoStepFaults : Prop :=
  ∀ s t : State, s.params.invalidPolicy = .halt → s.safe → step s = .next t → t.safe

/-- R81 with decisions D5, D6 and D10: every host operation takes the core to the run state of its row. A cycle ends, by the
event of the fetched instruction, in `Halted` for HALT, INVALID under `Halt` and end-of-memory, in `AwaitingInput(Num)` for
INPUT, in `AwaitingInput(Char)` for INPUT-CHAR, in `Faulted` with the word's record for INVALID under `Fault`, and in `Running`
for anything else. -/
def Obligations.RunStateFollowsTheTransitionTable : Prop :=
  ∀ (q : HostRequest) (s : State), ∃ t, transact q s = .next t ∧ t.run = runStateAfter q s

/-- R91: `step` and `resume` in `Faulted` change nothing, and only an accepted `reset` leaves it. -/
def Obligations.FaultedIsTerminal : Prop :=
  ∀ (q : HostRequest) (s : State) (r : FaultRecord), s.run = .faulted r →
    ∃ t, transact q s = .next t ∧ ((∀ image, q ≠ .reset image) → t = s) ∧
      (t.run ≠ s.run → (∃ image, q = .reset image) ∧ hostReply q s = .accepted)

/-- R90 and R98 with decision D10: neither final run state is left, nor any state changed in it, by an operation other than
an accepted `reset`. -/
def Obligations.FinalStatesAreLeftByResetOnly : Prop :=
  ∀ (q : HostRequest) (s t : State), s.run.final = true → transact q s = .next t → t ≠ s →
    (∃ image, q = .reset image) ∧ hostReply q s = .accepted ∧ t.run = .running

/-- R93 and R94 with decision D10: `step` in an input wait and `resume` outside one have no effect. -/
def Obligations.RequestsOutOfPlaceDoNothing : Prop :=
  ∀ s : State,
    (s.run ≠ .running → transact .step s = .next s) ∧
    ∀ v : Int, (∀ k, s.run ≠ .awaitingInput k) →
      transact (.resume v) s = .next s ∧ hostReply (.resume v) s = .nothing

/-! ### Reset, snapshot and the invariant -/

/-- R180 with decisions D2, D3, D5 and D33: an accepted image reinitialises every piece of the core's state at once. That the
parameters (notes/assumptions/2.md) and the pending requests (notes/assumptions/1.md) stay is the model's own choice. -/
def Obligations.AcceptedResetReinitialisesTheCore : Prop :=
  ∀ (image : List Int) (s : State), image.length = 100 → (∀ v ∈ image, 0 ≤ v ∧ v ≤ 999) →
    ∃ t, transact (.reset image) s = .next t ∧ hostReply (.reset image) s = .accepted ∧
      (∀ i, i < 100 → some ((t.mem.read i).val : Int) = image[i]?) ∧
      t = { mem := t.mem, acc := 0, pc := 0, neg := false, run := .running, out := [], ir := 0, eom := false,
            params := s.params, requests := s.requests }

/-- R182 with decisions D1 and D28: an image that has not exactly 100 entries, or an entry outside 0..999, is refused and
changes no state. -/
def Obligations.RefusedResetChangesNothing : Prop :=
  ∀ (image : List Int) (s : State), (image.length ≠ 100 ∨ ∃ v ∈ image, v < 0 ∨ 999 < v) →
    transact (.reset image) s = .next s ∧ hostReply (.reset image) s = .refused

/-- R180 and R181 with decisions D2, D3, D5 and D33, for the image of 100 zeros: what reset leaves, and that the first step
fetches from address 0; that no request is pending then, so that this step is `step()`, is the model's own choice
(notes/assumptions/1.md). -/
def Obligations.MachineAfterReset : Prop :=
  (∀ a, (State.reset.mem.read a).val = 0) ∧ State.reset.acc.val = 0 ∧ State.reset.pc.val = 0 ∧
  State.reset.neg = false ∧ State.reset.run = .running ∧ State.reset.out = [] ∧ State.reset.ir.val = 0 ∧
  State.reset.eom = false ∧ State.reset.halted = false ∧ State.reset.runsCycle ∧
  (fetch State.reset).ir = State.reset.mem.read 0

/-- R95 with decision D11: what a snapshot shows of the core, in every run state, without changing it. -/
def Obligations.SnapshotShowsTheCore : Prop :=
  ∀ s : State,
    transact .snapshot s = .next s ∧ hostReply .snapshot s = .snapshot (hostSnapshot s) ∧
    (hostSnapshot s).mem.length = 100 ∧ (∀ a, a < 100 → (hostSnapshot s).mem[a]? = some (s.mem.read a)) ∧
    (hostSnapshot s).acc = s.acc ∧ (hostSnapshot s).pc = s.pc ∧ (hostSnapshot s).neg = s.neg ∧
    ((hostSnapshot s).halted = true ↔ s.run = .halted) ∧ (hostSnapshot s).run = s.run ∧ (hostSnapshot s).out = s.out

/-- R20: no step changes the parameters; and, the model's own convention of notes/assumptions/1.md, a step takes one pending
request. -/
def Obligations.StepsKeepTheParameters : Prop :=
  ∀ s t : State, step s = .next t → t.params = s.params ∧ t.requests = s.requests.tail

/-- The invariant `State.Inv` of Safety.lean, whose canonical form of memory is the model's own choice
(notes/assumptions/3.md), holds after reset. -/
def Obligations.ResetSatisfiesTheCoreConditions : Prop := State.reset.Inv

/-- Every step, whatever the host's request, keeps the invariant `State.Inv` of Safety.lean: the memory keeps the canonical
form that the model chose for R40's cells (notes/assumptions/3.md), the end-of-memory latch is set only while an instruction from 99 waits or has faulted (R29), a wait is that
of the fetched input instruction (R141, R142), and no run reaches AddressOutOfRange (R161). -/
def Obligations.EveryStepKeepsTheCoreConditions : Prop :=
  ∀ s t : State, s.Inv → step s = .next t → t.Inv
end

