-- ==== Sys2Proof/Laws/Memory.lean ====
section
/-! SUPPORT. The laws of the memory operations: what a cell reads after each of them, and that each keeps the canonical
form. -/

namespace Sys2Proof.Machine

theorem Memory.read_erase (m : Memory) (a b : Nat) :
    Memory.read (Memory.erase m a) b = if b = a then Memory.unlisted else Memory.read m b := by
  induction m with
  | nil => simp [Memory.erase, Memory.read]
  | cons c rest ih =>
    obtain ⟨k, w⟩ := c
    by_cases hk : k = a
    · subst hk
      by_cases hb : b = k
      · subst hb
        simpa [Memory.erase] using ih
      · simp [Memory.erase, ih, hb, Memory.read, Ne.symm hb]
    · by_cases hb : b = a
      · subst hb
        simp [Memory.erase, hk, Memory.read, ih]
      · simp [Memory.erase, hk, Memory.read, ih, hb]

theorem Memory.read_insert (m : Memory) (a b : Nat) (v : Word)
    (habsent : ∀ c ∈ m, c.1 ≠ a) :
    Memory.read (Memory.insert m a v) b = if b = a then v else Memory.read m b := by
  induction m with
  | nil =>
    by_cases hb : b = a
    · simp [Memory.insert, Memory.read, hb]
    · simp [Memory.insert, Memory.read, hb, Ne.symm hb]
  | cons c rest ih =>
    obtain ⟨k, w⟩ := c
    have hk : k ≠ a := habsent (k, w) (by simp)
    have ih := ih fun c hc => habsent c (by simp [hc])
    by_cases hlt : a < k
    · by_cases hb : b = a
      · simp [Memory.insert, hlt, Memory.read, hb]
      · simp [Memory.insert, hlt, Memory.read, hb, Ne.symm hb]
    · by_cases hb : b = a
      · subst hb
        simp [Memory.insert, hlt, Memory.read, hk, ih]
      · simp [Memory.insert, hlt, Memory.read, hb, ih]

theorem Memory.erase_absent (m : Memory) (a : Nat) : ∀ c ∈ Memory.erase m a, c.1 ≠ a := by
  induction m with
  | nil => simp [Memory.erase]
  | cons c rest ih =>
    obtain ⟨k, w⟩ := c
    by_cases hk : k = a
    · simpa [Memory.erase, hk] using ih
    · simpa [Memory.erase, hk] using ih

/-- The whole effect of a write on what is read. -/
theorem Memory.read_write (m : Memory) (a b : Nat) (v : Word) :
    Memory.read (Memory.write m a v) b = if b = a then v else Memory.read m b := by
  unfold Memory.write
  by_cases hv : v = Memory.unlisted
  · simp [hv, Memory.read_erase]
  · rw [if_neg hv, Memory.read_insert _ _ _ _ (Memory.erase_absent m a), Memory.read_erase]
    by_cases hb : b = a <;> simp [hb]

theorem Memory.sortedFrom_mono {lo lo' : Nat} (m : Memory) (h : lo' ≤ lo) (hm : Memory.sortedFrom lo m = true) :
    Memory.sortedFrom lo' m = true := by
  cases m with
  | nil => rfl
  | cons c rest =>
    simp only [Memory.sortedFrom, Bool.and_eq_true, decide_eq_true_eq] at hm ⊢
    exact ⟨⟨⟨h.trans hm.1.1.1, hm.1.1.2⟩, hm.1.2⟩, hm.2⟩

theorem Memory.sortedFrom_erase (m : Memory) (a lo : Nat) (hm : Memory.sortedFrom lo m = true) :
    Memory.sortedFrom lo (Memory.erase m a) = true := by
  induction m generalizing lo with
  | nil => rfl
  | cons c rest ih =>
    obtain ⟨k, w⟩ := c
    simp only [Memory.sortedFrom, Bool.and_eq_true, decide_eq_true_eq] at hm
    have hrest := ih (k + 1) hm.2
    by_cases hk : k = a
    · simpa [Memory.erase, hk] using Memory.sortedFrom_mono _ (by omega) hrest
    · simpa [Memory.erase, hk, Memory.sortedFrom, hrest] using hm.1

theorem Memory.sortedFrom_insert (m : Memory) (a lo : Nat) (v : Word) (hlo : lo ≤ a) (ha : a < numCells)
    (hv : v ≠ Memory.unlisted) (habsent : ∀ c ∈ m, c.1 ≠ a) (hm : Memory.sortedFrom lo m = true) :
    Memory.sortedFrom lo (Memory.insert m a v) = true := by
  induction m generalizing lo with
  | nil => simp [Memory.insert, Memory.sortedFrom, hlo, ha, hv]
  | cons c rest ih =>
    obtain ⟨k, w⟩ := c
    have hk : k ≠ a := habsent (k, w) (by simp)
    simp only [Memory.sortedFrom, Bool.and_eq_true, decide_eq_true_eq] at hm
    by_cases hlt : a < k
    · simp only [Memory.insert, if_pos hlt, Memory.sortedFrom, Bool.and_eq_true, decide_eq_true_eq]
      exact ⟨⟨⟨hlo, ha⟩, hv⟩, ⟨⟨by omega, hm.1.1.2⟩, hm.1.2⟩, hm.2⟩
    · have hrest := ih (k + 1) (by omega) (fun c hc => habsent c (by simp [hc])) hm.2
      simp only [Memory.insert, if_neg hlt, Memory.sortedFrom, Bool.and_eq_true, decide_eq_true_eq]
      exact ⟨hm.1, hrest⟩

/-- A write to an address of the memory keeps the canonical form. -/
theorem Memory.wf_write (m : Memory) (a : Nat) (v : Word) (ha : a < numCells) (hm : m.wf = true) :
    (m.write a v).wf = true := by
  unfold Memory.write
  by_cases hv : v = Memory.unlisted
  · rw [if_pos hv]
    exact Memory.sortedFrom_erase m a 0 hm
  · rw [if_neg hv]
    exact Memory.sortedFrom_insert _ a 0 v (Nat.zero_le a) ha hv (Memory.erase_absent m a)
      (Memory.sortedFrom_erase m a 0 hm)

theorem Memory.sortedFrom_ofWords (ws : List Word) (a : Nat) (h : a + ws.length ≤ numCells) :
    Memory.sortedFrom a (Memory.ofWords a ws) = true := by
  induction ws generalizing a with
  | nil => rfl
  | cons w rest ih =>
    simp only [List.length_cons] at h
    have hrest := ih (a + 1) (by omega)
    by_cases hw : w = Memory.unlisted
    · rw [Memory.ofWords, if_pos hw]
      exact Memory.sortedFrom_mono _ (by omega) hrest
    · rw [Memory.ofWords, if_neg hw]
      simp only [Memory.sortedFrom, Bool.and_eq_true, decide_eq_true_eq]
      exact ⟨⟨⟨Nat.le_refl a, by omega⟩, hw⟩, hrest⟩

/-- The memory of an image of at most 100 words has the canonical form. -/
theorem Memory.wf_ofWords (ws : List Word) (h : ws.length ≤ numCells) : (Memory.ofWords 0 ws).wf = true :=
  Memory.sortedFrom_ofWords ws 0 (by simpa using h)

theorem Memory.wf_nil : Memory.wf [] = true := rfl

theorem Memory.read_ofWords_below (ws : List Word) (a b : Nat) (h : b < a) :
    Memory.read (Memory.ofWords a ws) b = Memory.unlisted := by
  induction ws generalizing a with
  | nil => rfl
  | cons w rest ih =>
    have hrest := ih (a + 1) (by omega)
    by_cases hw : w = Memory.unlisted
    · simpa [Memory.ofWords, hw] using hrest
    · have hne : a ≠ b := by omega
      simpa [Memory.ofWords, hw, Memory.read, hne] using hrest

/-- A cell of an image's memory holds the image's word. -/
theorem Memory.read_ofWords (ws : List Word) (a i : Nat) :
    Memory.read (Memory.ofWords a ws) (a + i) = ws.getD i Memory.unlisted := by
  induction ws generalizing a i with
  | nil => simp [Memory.ofWords, Memory.read]
  | cons w rest ih =>
    cases i with
    | zero =>
      by_cases hw : w = Memory.unlisted
      · simpa [Memory.ofWords, hw] using Memory.read_ofWords_below rest (a + 1) a (by omega)
      · simp [Memory.ofWords, hw, Memory.read]
    | succ n =>
      have hrest := ih (a + 1) n
      rw [show a + 1 + n = a + (n + 1) from by omega] at hrest
      by_cases hw : w = Memory.unlisted
      · simpa [Memory.ofWords, hw] using hrest
      · have hne : a ≠ a + (n + 1) := by omega
        simpa [Memory.ofWords, hw, Memory.read, hne] using hrest

@[simp] theorem Memory.cellsFrom_length (m : Memory) (a n : Nat) : (m.cellsFrom a n).length = n := by
  induction n generalizing a with
  | zero => rfl
  | succ n ih => simp [Memory.cellsFrom, ih]

theorem Memory.cellsFrom_get (m : Memory) (a n i : Nat) (h : i < n) :
    (m.cellsFrom a n)[i]? = some (m.read (a + i)) := by
  induction n generalizing a i with
  | zero => omega
  | succ n ih =>
    cases i with
    | zero => rfl
    | succ j =>
      rw [Memory.cellsFrom, List.getElem?_cons_succ, ih (a + 1) j (by omega)]
      congr 2
      omega

end Sys2Proof.Machine
end

