-- ==== Sys2Proof/Laws/State.lean ====
section
/-! SUPPORT. One lemma per field per named update of State, true by rfl. -/

namespace Sys2Proof.Machine.State

variable (s : State)

@[simp] theorem withMem_mem (m : Memory) : (s.withMem m).mem = m := rfl
@[simp] theorem withMem_acc (m : Memory) : (s.withMem m).acc = s.acc := rfl
@[simp] theorem withMem_pc (m : Memory) : (s.withMem m).pc = s.pc := rfl
@[simp] theorem withMem_neg (m : Memory) : (s.withMem m).neg = s.neg := rfl
@[simp] theorem withMem_run (m : Memory) : (s.withMem m).run = s.run := rfl
@[simp] theorem withMem_out (m : Memory) : (s.withMem m).out = s.out := rfl
@[simp] theorem withMem_ir (m : Memory) : (s.withMem m).ir = s.ir := rfl
@[simp] theorem withMem_eom (m : Memory) : (s.withMem m).eom = s.eom := rfl
@[simp] theorem withMem_params (m : Memory) : (s.withMem m).params = s.params := rfl
@[simp] theorem withMem_requests (m : Memory) : (s.withMem m).requests = s.requests := rfl

@[simp] theorem withAcc_mem (v : Word) : (s.withAcc v).mem = s.mem := rfl
@[simp] theorem withAcc_acc (v : Word) : (s.withAcc v).acc = v := rfl
@[simp] theorem withAcc_pc (v : Word) : (s.withAcc v).pc = s.pc := rfl
@[simp] theorem withAcc_neg (v : Word) : (s.withAcc v).neg = s.neg := rfl
@[simp] theorem withAcc_run (v : Word) : (s.withAcc v).run = s.run := rfl
@[simp] theorem withAcc_out (v : Word) : (s.withAcc v).out = s.out := rfl
@[simp] theorem withAcc_ir (v : Word) : (s.withAcc v).ir = s.ir := rfl
@[simp] theorem withAcc_eom (v : Word) : (s.withAcc v).eom = s.eom := rfl
@[simp] theorem withAcc_params (v : Word) : (s.withAcc v).params = s.params := rfl
@[simp] theorem withAcc_requests (v : Word) : (s.withAcc v).requests = s.requests := rfl

@[simp] theorem withPc_mem (a : Addr) : (s.withPc a).mem = s.mem := rfl
@[simp] theorem withPc_acc (a : Addr) : (s.withPc a).acc = s.acc := rfl
@[simp] theorem withPc_pc (a : Addr) : (s.withPc a).pc = a := rfl
@[simp] theorem withPc_neg (a : Addr) : (s.withPc a).neg = s.neg := rfl
@[simp] theorem withPc_run (a : Addr) : (s.withPc a).run = s.run := rfl
@[simp] theorem withPc_out (a : Addr) : (s.withPc a).out = s.out := rfl
@[simp] theorem withPc_ir (a : Addr) : (s.withPc a).ir = s.ir := rfl
@[simp] theorem withPc_eom (a : Addr) : (s.withPc a).eom = s.eom := rfl
@[simp] theorem withPc_params (a : Addr) : (s.withPc a).params = s.params := rfl
@[simp] theorem withPc_requests (a : Addr) : (s.withPc a).requests = s.requests := rfl

@[simp] theorem withNeg_mem (b : Bool) : (s.withNeg b).mem = s.mem := rfl
@[simp] theorem withNeg_acc (b : Bool) : (s.withNeg b).acc = s.acc := rfl
@[simp] theorem withNeg_pc (b : Bool) : (s.withNeg b).pc = s.pc := rfl
@[simp] theorem withNeg_neg (b : Bool) : (s.withNeg b).neg = b := rfl
@[simp] theorem withNeg_run (b : Bool) : (s.withNeg b).run = s.run := rfl
@[simp] theorem withNeg_out (b : Bool) : (s.withNeg b).out = s.out := rfl
@[simp] theorem withNeg_ir (b : Bool) : (s.withNeg b).ir = s.ir := rfl
@[simp] theorem withNeg_eom (b : Bool) : (s.withNeg b).eom = s.eom := rfl
@[simp] theorem withNeg_params (b : Bool) : (s.withNeg b).params = s.params := rfl
@[simp] theorem withNeg_requests (b : Bool) : (s.withNeg b).requests = s.requests := rfl

@[simp] theorem withRun_mem (r : RunState) : (s.withRun r).mem = s.mem := rfl
@[simp] theorem withRun_acc (r : RunState) : (s.withRun r).acc = s.acc := rfl
@[simp] theorem withRun_pc (r : RunState) : (s.withRun r).pc = s.pc := rfl
@[simp] theorem withRun_neg (r : RunState) : (s.withRun r).neg = s.neg := rfl
@[simp] theorem withRun_run (r : RunState) : (s.withRun r).run = r := rfl
@[simp] theorem withRun_out (r : RunState) : (s.withRun r).out = s.out := rfl
@[simp] theorem withRun_ir (r : RunState) : (s.withRun r).ir = s.ir := rfl
@[simp] theorem withRun_eom (r : RunState) : (s.withRun r).eom = s.eom := rfl
@[simp] theorem withRun_params (r : RunState) : (s.withRun r).params = s.params := rfl
@[simp] theorem withRun_requests (r : RunState) : (s.withRun r).requests = s.requests := rfl

@[simp] theorem withOut_mem (es : List OutEvent) : (s.withOut es).mem = s.mem := rfl
@[simp] theorem withOut_acc (es : List OutEvent) : (s.withOut es).acc = s.acc := rfl
@[simp] theorem withOut_pc (es : List OutEvent) : (s.withOut es).pc = s.pc := rfl
@[simp] theorem withOut_neg (es : List OutEvent) : (s.withOut es).neg = s.neg := rfl
@[simp] theorem withOut_run (es : List OutEvent) : (s.withOut es).run = s.run := rfl
@[simp] theorem withOut_out (es : List OutEvent) : (s.withOut es).out = es := rfl
@[simp] theorem withOut_ir (es : List OutEvent) : (s.withOut es).ir = s.ir := rfl
@[simp] theorem withOut_eom (es : List OutEvent) : (s.withOut es).eom = s.eom := rfl
@[simp] theorem withOut_params (es : List OutEvent) : (s.withOut es).params = s.params := rfl
@[simp] theorem withOut_requests (es : List OutEvent) : (s.withOut es).requests = s.requests := rfl

@[simp] theorem withIr_mem (w : Word) : (s.withIr w).mem = s.mem := rfl
@[simp] theorem withIr_acc (w : Word) : (s.withIr w).acc = s.acc := rfl
@[simp] theorem withIr_pc (w : Word) : (s.withIr w).pc = s.pc := rfl
@[simp] theorem withIr_neg (w : Word) : (s.withIr w).neg = s.neg := rfl
@[simp] theorem withIr_run (w : Word) : (s.withIr w).run = s.run := rfl
@[simp] theorem withIr_out (w : Word) : (s.withIr w).out = s.out := rfl
@[simp] theorem withIr_ir (w : Word) : (s.withIr w).ir = w := rfl
@[simp] theorem withIr_eom (w : Word) : (s.withIr w).eom = s.eom := rfl
@[simp] theorem withIr_params (w : Word) : (s.withIr w).params = s.params := rfl
@[simp] theorem withIr_requests (w : Word) : (s.withIr w).requests = s.requests := rfl

@[simp] theorem withEom_mem (b : Bool) : (s.withEom b).mem = s.mem := rfl
@[simp] theorem withEom_acc (b : Bool) : (s.withEom b).acc = s.acc := rfl
@[simp] theorem withEom_pc (b : Bool) : (s.withEom b).pc = s.pc := rfl
@[simp] theorem withEom_neg (b : Bool) : (s.withEom b).neg = s.neg := rfl
@[simp] theorem withEom_run (b : Bool) : (s.withEom b).run = s.run := rfl
@[simp] theorem withEom_out (b : Bool) : (s.withEom b).out = s.out := rfl
@[simp] theorem withEom_ir (b : Bool) : (s.withEom b).ir = s.ir := rfl
@[simp] theorem withEom_eom (b : Bool) : (s.withEom b).eom = b := rfl
@[simp] theorem withEom_params (b : Bool) : (s.withEom b).params = s.params := rfl
@[simp] theorem withEom_requests (b : Bool) : (s.withEom b).requests = s.requests := rfl

@[simp] theorem withRequests_mem (qs : List HostRequest) : (s.withRequests qs).mem = s.mem := rfl
@[simp] theorem withRequests_acc (qs : List HostRequest) : (s.withRequests qs).acc = s.acc := rfl
@[simp] theorem withRequests_pc (qs : List HostRequest) : (s.withRequests qs).pc = s.pc := rfl
@[simp] theorem withRequests_neg (qs : List HostRequest) : (s.withRequests qs).neg = s.neg := rfl
@[simp] theorem withRequests_run (qs : List HostRequest) : (s.withRequests qs).run = s.run := rfl
@[simp] theorem withRequests_out (qs : List HostRequest) : (s.withRequests qs).out = s.out := rfl
@[simp] theorem withRequests_ir (qs : List HostRequest) : (s.withRequests qs).ir = s.ir := rfl
@[simp] theorem withRequests_eom (qs : List HostRequest) : (s.withRequests qs).eom = s.eom := rfl
@[simp] theorem withRequests_params (qs : List HostRequest) : (s.withRequests qs).params = s.params := rfl
@[simp] theorem withRequests_requests (qs : List HostRequest) : (s.withRequests qs).requests = qs := rfl

end Sys2Proof.Machine.State
end

