-- ==== Sys2Proof/Laws/Ops.lean ====
section
/-! SUPPORT. For each shared operation, one lemma that says once all it can do, and the fields it leaves alone. -/

namespace Sys2Proof.Machine

/-! ### The program counter -/

theorem nextPc_val (a : Addr) : (nextPc a).val = (a.val + 1) % 100 := rfl

@[simp] theorem fetchPc_of_nextPc (s : State) (a : Addr) (h : s.pc = nextPc a) : fetchPc s = a := by
  apply Fin.ext
  have := a.isLt
  simp only [fetchPc, h, nextPc_val]
  omega

theorem nextPc_of_last : nextPc 99 = 0 := rfl

/-! ### Branches, faults, events, waits and halts -/

theorem branchTo_eq (a : Addr) (s : State) : branchTo a s = { s with pc := a, eom := false } := rfl

theorem raiseFault_eq (kind : FaultKind) (info : Nat) (s : State) :
    raiseFault kind info s = { s with run := .faulted ⟨kind, fetchPc s, info⟩ } := rfl

theorem emit_eq (e : OutEvent) (s : State) : emit e s = { s with out := s.out ++ [e] } := rfl

theorem await_eq (k : InputKind) (s : State) : await k s = { s with run := .awaitingInput k } := rfl

theorem halt_eq (s : State) : halt s = { s with run := .halted } := rfl

/-- INVALID halts or faults, and writes the run state only. -/
theorem invalidInstruction_cases (s : State) :
    (s.params.invalidPolicy = .halt ∧ invalidInstruction s = { s with run := .halted }) ∨
    (s.params.invalidPolicy = .fault ∧
      invalidInstruction s = { s with run := .faulted ⟨.invalidInstruction, fetchPc s, s.ir.val⟩ }) := by
  cases h : s.params.invalidPolicy
  · exact .inl ⟨rfl, by simp only [invalidInstruction, h]; rfl⟩
  · exact .inr ⟨rfl, by simp only [invalidInstruction, h]; rfl⟩

/-! ### Memory access and the ALU -/

theorem memRead_of_le {a : Nat} (s : State) (h : a ≤ 99) : memRead a s = some (s.mem.read a) := by
  simp [memRead, Nat.not_lt.mpr h]

theorem memWrite_of_le {a : Nat} (v : Word) (s : State) (h : a ≤ 99) :
    memWrite a v s = { s with mem := s.mem.write a v } := by
  simp [memWrite, Nat.not_lt.mpr h, State.withMem]

theorem memWrite_of_gt {a : Nat} (v : Word) (s : State) (h : 99 < a) :
    memWrite a v s = raiseFault .addressOutOfRange a s := by
  simp [memWrite, h]

theorem withOperand_of_le {a : Nat} (s : State) (k : Word → State) (h : a ≤ 99) :
    withOperand a s k = k (s.mem.read a) := by
  simp [withOperand, effectiveAddress, memRead_of_le s h]

theorem withOperand_of_gt {a : Nat} (s : State) (k : Word → State) (h : 99 < a) :
    withOperand a s k = raiseFault .addressOutOfRange a s := by
  simp [withOperand, effectiveAddress, memRead, h]

theorem setAccNeg_eq (r : Word × Bool) (s : State) : setAccNeg r s = { s with acc := r.1, neg := r.2 } := rfl

/-- The sum's residue and the carry. -/
theorem aluAdd_spec (x y : Word) :
    (aluAdd x y).1.val = (x.val + y.val) % 1000 ∧ ((aluAdd x y).2 = true ↔ 999 < x.val + y.val) := by
  have := x.isLt
  have := y.isLt
  unfold aluAdd
  split <;> constructor <;> simp <;> omega

/-- The difference's residue and the borrow. -/
theorem aluSub_spec (x y : Word) :
    (aluSub x y).1.val = (x.val + 1000 - y.val) % 1000 ∧ ((aluSub x y).2 = true ↔ x.val < y.val) := by
  have := x.isLt
  have := y.isLt
  unfold aluSub
  split <;> constructor <;> simp <;> omega

/-! ### The cycle around execute -/

theorem fetch_eq (s : State) :
    fetch s = { s with ir := s.mem.read s.pc.val, eom := decide (s.pc.val = 99), pc := nextPc s.pc } := rfl

/-- The fetch is a memory read that cannot fault (R83). -/
theorem memRead_pc (s : State) : memRead s.pc.val s = some (fetch s).ir :=
  memRead_of_le s (by have := s.pc.isLt; omega)

@[simp] theorem fetchPc_fetch (s : State) : fetchPc (fetch s) = s.pc := fetchPc_of_nextPc _ _ rfl

theorem complete_eq (k : Kind) (s : State) :
    complete k s = { s with neg := completedNeg k s, run := completedRun s, eom := false } := rfl

theorem completedNeg_of_keeps {k : Kind} (s : State) (h : completionKeepsNeg k = true) : completedNeg k s = s.neg := by
  unfold completedNeg
  split <;> simp [h]

/-- Completion halts at end-of-memory and otherwise keeps the run state. -/
theorem completedRun_cases (s : State) :
    (s.eom = true ∧ s.run = .running ∧ completedRun s = .halted) ∨
    ((s.eom = false ∨ s.run ≠ .running) ∧ completedRun s = s.run) := by
  unfold completedRun
  split
  · next h1 h2 => exact .inl ⟨h1, h2, rfl⟩
  · next hx =>
    refine .inr ⟨?_, rfl⟩
    cases he : s.eom
    · exact .inl rfl
    · exact .inr (fun hr => hx he hr)

/-- Completion runs in `Running` and `Halted`, and in no other run state. -/
theorem completeUnlessStopped_cases (k : Kind) (s : State) :
    ((s.run = .running ∨ s.run = .halted) ∧ completeUnlessStopped k s = complete k s) ∨
    (((∃ i, s.run = .awaitingInput i) ∨ ∃ r, s.run = .faulted r) ∧ completeUnlessStopped k s = s) := by
  cases h : s.run <;> simp [completeUnlessStopped, h]

/-! ### The host's values -/

theorem wordOfInt_eq_some {v : Int} {w : Word} : wordOfInt v = some w ↔ (0 ≤ v ∧ v ≤ 999) ∧ (w.val : Int) = v := by
  unfold wordOfInt
  split
  · next h =>
    simp only [Option.some.injEq]
    constructor
    · rintro rfl
      exact ⟨h, Int.toNat_of_nonneg h.1⟩
    · rintro ⟨-, hw⟩
      apply Fin.ext
      simp only
      omega
  · next h => simp [h]

theorem wordOfInt_eq_none {v : Int} : wordOfInt v = none ↔ v < 0 ∨ 999 < v := by
  unfold wordOfInt
  split <;> simp <;> omega

theorem wordsOfImage_length {image : List Int} {ws : List Word} (h : wordsOfImage image = some ws) :
    ws.length = image.length := by
  induction image generalizing ws with
  | nil => cases h; rfl
  | cons v rest ih =>
    simp only [wordsOfImage] at h
    split at h
    · next hw hrest => cases h; simp [ih hrest]
    · cases h

end Sys2Proof.Machine
end

