-- ==== Sys2Proof/Laws/Exec.lean ====
section
/-! SUPPORT. The meaning of each instruction as one equation, and what no instruction writes. -/

namespace Sys2Proof.Machine

variable (s : State)

theorem exec_halt : exec .halt s = .next { s with run := .halted } := rfl

theorem exec_branchAlways (a : Addr) : exec (.branchAlways a) s = .next { s with pc := a, eom := false } := rfl

theorem exec_branchIfZero (a : Addr) :
    exec (.branchIfZero a) s = .next (if s.acc = 0 then { s with pc := a, eom := false } else s) := rfl

theorem exec_branchIfPositive (a : Addr) :
    exec (.branchIfPositive a) s = .next (if s.neg = false then { s with pc := a, eom := false } else s) := rfl

theorem exec_input : exec .input s = .next { s with run := .awaitingInput .num } := rfl

theorem exec_inputChar : exec .inputChar s = .next { s with run := .awaitingInput .char } := rfl

theorem exec_output : exec .output s = .next { s with out := s.out ++ [.num s.acc] } := rfl

theorem exec_outputChar : exec .outputChar s = .next { s with out := s.out ++ [.char s.acc] } := rfl

theorem exec_invalidFamily (x : Fin 100) : exec (.invalidFamily x) s = .next (invalidInstruction s) := rfl

theorem exec_invalidSubcode (ss : Fin 100) : exec (.invalidSubcode ss) s = .next (invalidInstruction s) := rfl

theorem exec_add_of_le {a : Nat} (h : a ≤ 99) :
    exec (.add a) s =
      .next { s with acc := (aluAdd s.acc (s.mem.read a)).1, neg := (aluAdd s.acc (s.mem.read a)).2 } := by
  simp only [exec, execAdd, withOperand_of_le s _ h, setAccNeg_eq]

theorem exec_subtract_of_le {a : Nat} (h : a ≤ 99) :
    exec (.subtract a) s =
      .next { s with acc := (aluSub s.acc (s.mem.read a)).1, neg := (aluSub s.acc (s.mem.read a)).2 } := by
  simp only [exec, execSubtract, withOperand_of_le s _ h, setAccNeg_eq]

theorem exec_load_of_le {a : Nat} (h : a ≤ 99) : exec (.load a) s = .next { s with acc := s.mem.read a } := by
  simp only [exec, execLoad, withOperand_of_le s _ h, State.withAcc]

theorem exec_store_of_le {a : Nat} (h : a ≤ 99) :
    exec (.store a) s = .next { s with mem := s.mem.write a s.acc } := by
  simp only [exec, execStore, effectiveAddress, memWrite_of_le _ s h]

/-- No instruction writes the working register, the parameters or the host's requests. -/
theorem exec_keeps_hidden {i : Instr} {s t : State} (h : exec i s = .next t) :
    t.ir = s.ir ∧ t.params = s.params ∧ t.requests = s.requests := by
  have read (a : Nat) (k : Word → State)
      (hk : ∀ w, (k w).ir = s.ir ∧ (k w).params = s.params ∧ (k w).requests = s.requests) :
      (withOperand a s k).ir = s.ir ∧ (withOperand a s k).params = s.params ∧
        (withOperand a s k).requests = s.requests := by
    rcases Nat.lt_or_ge 99 a with ha | ha
    · rw [withOperand_of_gt s k ha]
      exact ⟨rfl, rfl, rfl⟩
    · rw [withOperand_of_le s k ha]
      exact hk _
  have invalid : (invalidInstruction s).ir = s.ir ∧ (invalidInstruction s).params = s.params ∧
      (invalidInstruction s).requests = s.requests := by
    rcases invalidInstruction_cases s with ⟨-, e⟩ | ⟨-, e⟩ <;> rw [e] <;> exact ⟨rfl, rfl, rfl⟩
  cases i with
  | add a => cases h; exact read a _ fun _ => ⟨rfl, rfl, rfl⟩
  | subtract a => cases h; exact read a _ fun _ => ⟨rfl, rfl, rfl⟩
  | load a => cases h; exact read a _ fun _ => ⟨rfl, rfl, rfl⟩
  | store a =>
    cases h
    rcases Nat.lt_or_ge 99 a with ha | ha
    · rw [show memWrite (effectiveAddress a) s.acc s = _ from memWrite_of_gt _ s ha]
      exact ⟨rfl, rfl, rfl⟩
    · rw [show memWrite (effectiveAddress a) s.acc s = _ from memWrite_of_le _ s ha]
      exact ⟨rfl, rfl, rfl⟩
  | branchIfZero a => cases h; split <;> exact ⟨rfl, rfl, rfl⟩
  | branchIfPositive a => cases h; split <;> exact ⟨rfl, rfl, rfl⟩
  | invalidFamily x => cases h; exact invalid
  | invalidSubcode ss => cases h; exact invalid
  | halt => cases h; exact ⟨rfl, rfl, rfl⟩
  | branchAlways a => cases h; exact ⟨rfl, rfl, rfl⟩
  | input => cases h; exact ⟨rfl, rfl, rfl⟩
  | output => cases h; exact ⟨rfl, rfl, rfl⟩
  | inputChar => cases h; exact ⟨rfl, rfl, rfl⟩
  | outputChar => cases h; exact ⟨rfl, rfl, rfl⟩

end Sys2Proof.Machine
end

