-- ==== Sys2Proof/Laws/Host.lean ====
section
/-! SUPPORT. For each of the host's operations, one lemma that says all it can do. -/

namespace Sys2Proof.Machine

/-- `reset(image)` loads an accepted image into the reset state, or changes nothing. -/
theorem hostReset_cases (image : List Int) (s : State) :
    (∃ ws, image.length = numCells ∧ wordsOfImage image = some ws ∧ hostResetReply image = .accepted ∧
      hostReset image s =
        { State.reset with mem := Memory.ofWords 0 ws, params := s.params, requests := s.requests }) ∨
    ((image.length ≠ numCells ∨ wordsOfImage image = none) ∧ hostResetReply image = .refused ∧ hostReset image s = s) := by
  by_cases hl : image.length = numCells
  · cases hw : wordsOfImage image with
    | some ws => exact .inl ⟨ws, hl, rfl, by simp [hostResetReply, acceptedImage, hl, hw],
        by simp [hostReset, acceptedImage, hl, hw]⟩
    | none => exact .inr ⟨.inr rfl, by simp [hostResetReply, acceptedImage, hl, hw],
        by simp [hostReset, acceptedImage, hl, hw]⟩
  · exact .inr ⟨.inl hl, by simp [hostResetReply, acceptedImage, hl], by simp [hostReset, acceptedImage, hl]⟩

/-- `resume(v)` delivers an accepted value to a wait, or changes nothing. -/
theorem hostResume_cases (v : Int) (s : State) :
    (∃ k w, s.run = .awaitingInput k ∧ wordOfInt v = some w ∧
      hostResume v s = complete k.instrKind { s with acc := w, run := .running }) ∨
    ((wordOfInt v = none ∨ ∀ k, s.run ≠ .awaitingInput k) ∧ hostResume v s = s) := by
  cases hr : s.run with
  | awaitingInput k =>
    cases hw : wordOfInt v with
    | some w => exact .inl ⟨k, w, rfl, rfl, by simp only [hostResume, hr, hw]; rfl⟩
    | none => exact .inr ⟨.inl rfl, by simp only [hostResume, hr, hw]⟩
  | running => exact .inr ⟨.inr (by simp), by simp only [hostResume, hr]⟩
  | halted => exact .inr ⟨.inr (by simp), by simp only [hostResume, hr]⟩
  | faulted r => exact .inr ⟨.inr (by simp), by simp only [hostResume, hr]⟩

/-- `step()` runs a cycle in `Running` and changes nothing in any other run state. -/
theorem hostStep_cases (s : State) :
    (s.run = .running ∧ hostStep s = cycle s) ∨ (s.run ≠ .running ∧ hostStep s = .next s) := by
  cases hr : s.run <;> simp [hostStep, hr]

/-- A cycle whose execute answers a next state answers its completion. -/
theorem cycle_of_exec {s t : State} (h : exec (fetchedInstr s) (fetch s) = .next t) :
    cycle s = .next (completeUnlessStopped (fetchedInstr s).kind t) := by
  simp only [cycle, h]

end Sys2Proof.Machine
end

