-- ==== Sys2Proof/Laws/PerInstr.lean ====
section
/-! SUPPORT. The per-instruction family `EncodedDigits`: the digits of a well-formed instruction's word are its opcode
family and its two low digits (spec/30_encoding.md rules R60, R61). -/

namespace Sys2Proof.Laws.EncodedDigits

/-- The word of a well-formed instruction has the instruction's digits, under either setting of P_EXT_911. -/
def Statement (i : Instr) : Prop :=
  ∀ ext, i.wellFormed ext = true → opFamily (encode i) = i.family ∧ (operandField (encode i)).val = i.lowDigits

/-- Two low digits below 100 and a family digit below 10 are read back from the number they make. -/
theorem of_lowDigits_lt (i : Instr) (hf : i.family < 10) (h : i.lowDigits < 100) :
    opFamily (encode i) = i.family ∧ (operandField (encode i)).val = i.lowDigits := by
  have hv : (encode i).val = 100 * i.family + i.lowDigits := by
    simp only [encode, Fin.val_ofNat]
    omega
  constructor
  · simp only [opFamily, hv]
    omega
  · simp only [operandField, hv]
    omega

theorem halt : Statement .halt := fun _ _ => of_lowDigits_lt _ (by decide) (by decide)
theorem add (a : Nat) : Statement (.add a) := fun _ h => of_lowDigits_lt _ (by simp [Instr.family]) (of_decide_eq_true h)
theorem subtract (a : Nat) : Statement (.subtract a) := fun _ h => of_lowDigits_lt _ (by simp [Instr.family]) (of_decide_eq_true h)
theorem store (a : Nat) : Statement (.store a) := fun _ h => of_lowDigits_lt _ (by simp [Instr.family]) (of_decide_eq_true h)
theorem load (a : Nat) : Statement (.load a) := fun _ h => of_lowDigits_lt _ (by simp [Instr.family]) (of_decide_eq_true h)
theorem branchAlways (a : Addr) : Statement (.branchAlways a) := fun _ _ => of_lowDigits_lt _ (by simp [Instr.family]) a.isLt
theorem branchIfZero (a : Addr) : Statement (.branchIfZero a) := fun _ _ => of_lowDigits_lt _ (by simp [Instr.family]) a.isLt
theorem branchIfPositive (a : Addr) : Statement (.branchIfPositive a) :=
  fun _ _ => of_lowDigits_lt _ (by simp [Instr.family]) a.isLt
theorem input : Statement .input := fun _ _ => of_lowDigits_lt _ (by decide) (by decide)
theorem output : Statement .output := fun _ _ => of_lowDigits_lt _ (by decide) (by decide)
theorem inputChar : Statement .inputChar := fun _ _ => of_lowDigits_lt _ (by decide) (by decide)
theorem outputChar : Statement .outputChar := fun _ _ => of_lowDigits_lt _ (by decide) (by decide)
theorem invalidFamily (x : Fin 100) : Statement (.invalidFamily x) :=
  fun _ _ => of_lowDigits_lt _ (by simp [Instr.family]) x.isLt
theorem invalidSubcode (ss : Fin 100) : Statement (.invalidSubcode ss) :=
  fun _ _ => of_lowDigits_lt _ (by simp [Instr.family]) ss.isLt

end Sys2Proof.Laws.EncodedDigits
end

