-- ==== Sys2Proof/Tests/Slice0.lean ====
section
/-! SUPPORT. Small tests, each expected value taken from spec/95_test_vectors.md (its row is named) or worked out by hand
from the rule named; and, for each obligation with hypotheses, a state and operands that meet them. -/

namespace Sys2Proof.Tests

open Sys2Proof Sys2Proof.Machine

/-! ### Helpers -/

/-- A running state about to fetch `w` at `p`. -/
def at_ (p : Addr) (w acc : Word) (neg : Bool := false) (cells : Memory := []) (ps : Params := Params.default) : State :=
  { State.reset with mem := Memory.write cells p.val w, pc := p, acc := acc, neg := neg, params := ps }

def faultPolicy : Params := { Params.default with invalidPolicy := .fault }
def clearing : Params := { Params.default with negFrame := .clearOnOthers }
def no911 : Params := { Params.default with ext911 := .invalid }

def nextState : Host.Outcome State Fault Refusal → Option State
  | .next t => some t
  | .fault _ => none
  | .refused _ => none

/-- The state after one step. -/
def after (s : State) : Option State := nextState (step s)

/-- The accumulator and the flag. -/
def an (s : State) : Word × Bool := (s.acc, s.neg)

/-- The program counter and the run state. -/
def pr (s : State) : Addr × RunState := (s.pc, s.run)

/-! ### Well-formedness: a term that each check refuses -/

theorem test_wf_refuses_add : (Instr.add 100).wellFormed .inputChar = false := by decide
theorem test_wf_refuses_subtract : (Instr.subtract 100).wellFormed .inputChar = false := by decide
theorem test_wf_refuses_store : (Instr.store 150).wellFormed .inputChar = false := by decide
theorem test_wf_refuses_load : (Instr.load 999).wellFormed .inputChar = false := by decide
theorem test_wf_refuses_inputChar : Instr.inputChar.wellFormed .invalid = false := by decide
theorem test_wf_refuses_valid_subcodes :
    ([1, 2, 11, 22].map fun ss => (Instr.invalidSubcode ss).wellFormed .inputChar) = [false, false, false, false] := by
  decide
theorem test_wf_subcode_11_without_extension : (Instr.invalidSubcode 11).wellFormed .invalid = true := by decide

/-! ### Decoding: a word of each constructor, digits written out from 30_encoding.md section 3 -/

theorem test_decode_halt : decode .inputChar 42 = .halt := by decide
theorem test_decode_add : decode .inputChar 150 = .add 50 := by decide
theorem test_decode_subtract : decode .inputChar 220 = .subtract 20 := by decide
theorem test_decode_store : decode .inputChar 399 = .store 99 := by decide
theorem test_decode_load : decode .inputChar 507 = .load 7 := by decide
theorem test_decode_branchAlways : decode .inputChar 601 = .branchAlways 1 := by decide
theorem test_decode_branchIfZero : decode .inputChar 705 = .branchIfZero 5 := by decide
theorem test_decode_branchIfPositive : decode .inputChar 808 = .branchIfPositive 8 := by decide
theorem test_decode_input : decode .inputChar 901 = .input := by decide
theorem test_decode_output : decode .inputChar 902 = .output := by decide
theorem test_decode_inputChar : decode .inputChar 911 = .inputChar := by decide
theorem test_decode_outputChar : decode .inputChar 922 = .outputChar := by decide
theorem test_decode_invalidFamily : decode .inputChar 499 = .invalidFamily 99 := by decide
theorem test_decode_invalidSubcode : decode .inputChar 912 = .invalidSubcode 12 := by decide
theorem test_decode_911_without_extension : decode .invalid 911 = .invalidSubcode 11 := by decide

theorem test_encode_words :
    [Instr.halt, .add 50, .subtract 20, .store 99, .load 7, .branchAlways 1, .branchIfZero 5, .branchIfPositive 8, .input,
      .output, .inputChar, .outputChar, .invalidFamily 99, .invalidSubcode 12].map encode =
    [0, 150, 220, 399, 507, 601, 705, 808, 901, 902, 911, 922, 499, 912] := by decide

theorem test_decodeTableWord_rows :
    [decodeTableWord 16 0, decodeTableWord 16 300, decodeTableWord 16 911, decodeTableWord 16 900, decodeTableWord 16 1000] =
    [some .halt, some (.store 0), some .inputChar, some (.invalidSubcode 0), none] := by decide

theorem test_decodeValue_refuses_by_name : decodeValue .inputChar 1000 = .error (.notAWord 1000) := by rfl

/-! ### One step of each instruction -/

-- W2 (TA7), TA3
theorem test_add_wraps : (after (at_ 0 150 800 false [(50, 500)])).map an = some (300, true) := by decide
theorem test_add_to_zero_sets_flag : (after (at_ 0 150 999 false [(50, 1)])).map an = some (0, true) := by decide
-- TS6, TS1
theorem test_subtract_borrows : (after (at_ 0 220 3 false [(20, 7)])).map an = some (996, true) := by decide
theorem test_subtract_zero_clears_flag : (after (at_ 0 220 5 true [(20, 5)])).map an = some (0, false) := by decide
-- TD1, TD5
theorem test_store : (after (at_ 4 399 42 true)).map (fun t => (t.mem.read 99, an t, t.pc)) = some (42, (42, true), 5) := by
  decide
theorem test_store_zero_unlists : (after (at_ 4 350 0 false [(50, 7)])).map (fun t => t.mem) = some [(4, 350)] := by decide
-- TD2 (W7), TD4
theorem test_load_keeps_flag : (after (at_ 0 520 1 true [(20, 7)])).map an = some (7, true) := by decide
theorem test_load_own_word : (after (at_ 7 507 0)).map an = some (507, false) := by decide
-- TB1, TB11
theorem test_branchAlways : (after (at_ 10 601 0)).map pr = some (1, .running) := by decide
theorem test_branchAlways_from_last : (after (at_ 99 650 0)).map pr = some (50, .running) := by decide
-- TB3, TB9
theorem test_branchIfZero_taken : (after (at_ 2 705 0 true)).map pr = some (5, .running) := by decide
theorem test_branchIfZero_from_last_not_taken : (after (at_ 99 799 5)).map pr = some (0, .halted) := by decide
-- TB5, TB6
theorem test_branchIfPositive_taken : (after (at_ 2 805 0 false)).map pr = some (5, .running) := by decide
theorem test_branchIfPositive_not_taken : (after (at_ 2 805 300 true)).map pr = some (3, .running) := by decide
-- TB14, TB13
theorem test_halt_after_reset : (after State.reset).map pr = some (1, .halted) := by decide
theorem test_halt_from_last : (after (at_ 99 0 0)).map pr = some (0, .halted) := by decide
-- TI1, TI6
theorem test_input_waits : (after (at_ 0 901 0)).map pr = some (1, .awaitingInput .num) := by decide
theorem test_input_from_last_latches :
    (after (at_ 99 901 0)).map (fun t => (pr t, t.eom)) = some ((0, .awaitingInput .num), true) := by decide
-- TI11, TI12
theorem test_inputChar_waits : (after (at_ 0 911 0)).map pr = some (1, .awaitingInput .char) := by decide
theorem test_inputChar_absent : (after (at_ 0 911 0 false [] no911)).map pr = some (1, .halted) := by decide
-- TI8, TI10
theorem test_output : (after (at_ 0 902 9)).map (fun t => t.out) = some [.num 9] := by decide
theorem test_outputChar : (after (at_ 0 922 300)).map (fun t => t.out) = some [.char 300] := by decide
-- TV1, TV2
theorem test_invalidFamily_halts : (after (at_ 1 400 12)).map pr = some (2, .halted) := by decide
theorem test_invalidFamily_faults :
    (after (at_ 1 400 12 false [] faultPolicy)).map pr = some (2, .faulted ⟨.invalidInstruction, 1, 400⟩) := by decide
-- TV5, TV4
theorem test_invalidSubcode_halts_from_last : (after (at_ 99 900 0)).map pr = some (0, .halted) := by decide
theorem test_invalidSubcode_faults_from_last :
    (after (at_ 99 900 0 false [] faultPolicy)).map pr = some (0, .faulted ⟨.invalidInstruction, 99, 900⟩) := by decide

/-! ### The cycle, the host's operations and injected faults -/

-- TD7 (W4)
theorem test_injected_store_faults :
    (nextState (exec (.store 150) { at_ 8 0 5 with pc := 9 })).map (fun t => (t.mem, pr t)) =
      some ([], (9, .faulted ⟨.addressOutOfRange, 8, 150⟩)) := by decide
theorem test_fault_codes : [FaultKind.addressOutOfRange.code, FaultKind.invalidInstruction.code] = [1, 2] := by decide

/-- The core in the wait of TI1, with host requests to come. -/
def waiting (qs : List HostRequest) : State :=
  { State.reset with mem := [(0, 901)], pc := 1, run := .awaitingInput .num, ir := 901, requests := qs }

-- TI2, TI3, TI4, TI7
theorem test_resume : (after (waiting [.resume 7])).map (fun t => (t.acc, pr t)) = some (7, (1, .running)) := by decide
theorem test_resume_rejects : after (waiting [.resume 1000]) = some (waiting []) := by decide
theorem test_resume_rejection_reported : hostReply (.resume (-1)) (waiting []) = .invalidInput (-1) := by decide
theorem test_step_in_wait : after (waiting [.step]) = some (waiting []) := by decide
theorem test_resume_at_end_of_memory :
    (after { waiting [.resume 5] with pc := 0, eom := true }).map (fun t => (t.acc, pr t)) = some (5, (0, .halted)) := by
  decide
-- TF2, TF3
theorem test_clearOnOthers_branch_reads_first :
    (after (at_ 1 805 999 true [] clearing)).map (fun t => (pr t, t.neg)) = some ((2, .running), false) := by decide
theorem test_clearOnOthers_load_excepted : (after (at_ 1 520 999 true [(20, 4)] clearing)).map an = some (4, true) := by
  decide
-- P5's last cycle
theorem test_end_of_memory : (after (at_ 99 902 0)).map (fun t => (pr t, t.out)) = some ((0, .halted), [.num 0]) := by decide
-- TB15, TV6
theorem test_halted_step : after { at_ 6 902 1 with run := .halted } = some { at_ 6 902 1 with run := .halted } := by decide

/-- The image of TR1: 7 at address 3 and 0 elsewhere. -/
def image : List Int := [0, 0, 0, 7] ++ List.replicate 96 0

-- TR1, TR2, TR3
theorem test_reset_accepts :
    after { at_ 9 902 1 with run := .halted, requests := [.reset image] } = some { State.reset with mem := [(3, 7)] } := by
  decide +kernel
theorem test_reset_refuses_value : hostReply (.reset ([1000] ++ image.tail)) State.reset = .refused := by decide
theorem test_reset_refuses_length : hostReply (.reset image.tail) State.reset = .refused := by decide
theorem test_snapshot_cells : ((hostSnapshot { State.reset with mem := [(3, 7)] }).mem.take 5) = [0, 0, 0, 7, 0] := by decide

theorem test_withFetchWord_runs :
    (after (State.reset.withFetchWord 16 601)).map (fun t => (pr t, t.ir)) = some ((1, .running), 601) := by decide

/-! ### A witness of each obligation's hypotheses, at the boundary values of its clauses -/

theorem witness_DecodeOfEncodeIsTheInstruction :
    (Instr.store 99).wellFormed .inputChar = true ∧ (Instr.load 0).wellFormed .invalid = true := by decide
theorem witness_EncodeOfDecodeIsTheWord : 100 ≤ (100 : Word).val ∧ (99 : Word).val < 100 := by decide
theorem witness_DecodedInstructionsAreWellFormed :
    decode .inputChar 199 = .add 99 ∧ decode .inputChar 200 = .subtract 0 ∧ decode .inputChar 399 = .store 99 ∧
      decode .inputChar 500 = .load 0 := by decide
theorem witness_DecoderFollowsTheFamilies :
    (99 : Fin 100).val = (99 : Word).val % 100 ∧ (99 : Word).val / 100 = 0 ∧ (100 : Word).val / 100 = 1 ∧
      (200 : Word).val / 100 = 2 ∧ (300 : Word).val / 100 = 3 ∧ (400 : Word).val / 100 = 4 ∧ (599 : Word).val / 100 = 5 ∧
      (600 : Word).val / 100 = 6 ∧ (799 : Word).val / 100 = 7 ∧ (800 : Word).val / 100 = 8 ∧ (999 : Word).val / 100 = 9 ∧
      (11 : Fin 100).val = (911 : Word).val % 100 := by decide
theorem witness_MemWriteChangesOneCellOrFaults : (99 : Nat) ≤ 99 ∧ 99 < (100 : Nat) ∧ (98 : Nat) ≠ 99 := by decide
theorem witness_MemReadGivesTheCellOrFaults : (99 : Nat) ≤ 99 ∧ 99 < (100 : Nat) := by decide
theorem witness_EqualCellsMakeEqualMemories :
    Memory.wf [(3, 7), (99, 1)] = true ∧ Memory.wf (Memory.write [(99, 1)] 3 7) = true ∧
      ∀ a ≤ 99, Memory.read [(3, 7), (99, 1)] a = Memory.read (Memory.write [(99, 1)] 3 7) a := by decide
theorem witness_AluNormalisesTheRawResult :
    999 < (999 : Word).val + (1 : Word).val ∧ (500 : Word).val + (499 : Word).val ≤ 999 ∧
      ((0 : Word).val : Int) - (1 : Word).val < 0 ∧ 0 ≤ ((5 : Word).val : Int) - (5 : Word).val := by decide
theorem witness_ArithmeticWrapsModuloOneThousand : (99 : Nat) ≤ 99 := by decide
theorem witness_AddResult :
    (199 : Word).val / 100 = 1 ∧ (99 : Nat) ≤ 99 ∧ 99 < (100 : Nat) ∧
      (at_ 0 150 500).acc.val + ((at_ 0 150 500 false [(50, 499)]).mem.read 50).val ≤ 999 ∧
      999 < (at_ 0 150 999).acc.val + ((at_ 0 150 999 false [(50, 1)]).mem.read 50).val := by decide
theorem witness_SubtractResult :
    (299 : Word).val / 100 = 2 ∧ (99 : Nat) ≤ 99 ∧ 99 < (100 : Nat) ∧
      ((at_ 0 250 5 false [(50, 5)]).mem.read 50).val ≤ (at_ 0 250 5 false [(50, 5)]).acc.val ∧
      (at_ 0 250 0 false [(50, 1)]).acc.val < ((at_ 0 250 0 false [(50, 1)]).mem.read 50).val := by decide
theorem witness_StoreResult :
    (399 : Word).val / 100 = 3 ∧ (99 : Nat) ≤ 99 ∧ 99 < (100 : Nat) ∧ (98 : Nat) ≠ effectiveAddress 99 ∧
      (at_ 0 399 5).params.negFrame = .preserve := by decide
theorem witness_LoadResult : (599 : Word).val / 100 = 5 ∧ (99 : Nat) ≤ 99 ∧ 99 < (100 : Nat) := by decide
theorem witness_AccessAboveTheMemoryFaults :
    99 < (100 : Nat) ∧ ({ State.reset with pc := 0 } : State).pc = nextPc 99 ∧ Instr.store 100 = .store 100 ∧
      (at_ 1 400 0 false [] faultPolicy).runsCycle ∧
      ∃ t, step (at_ 1 400 0 false [] faultPolicy) = .next t ∧ t.run = .faulted ⟨.invalidInstruction, 1, 400⟩ :=
  ⟨by decide, by decide, rfl, ⟨rfl, rfl⟩, ⟨_, rfl, by decide⟩⟩
theorem witness_BranchResults :
    (699 : Word).val = 600 + (99 : Addr).val ∧ (700 : Word).val = 700 + (0 : Addr).val ∧
      (899 : Word).val = 800 + (99 : Addr).val ∧ (at_ 2 705 0).acc.val = 0 ∧ (at_ 2 705 1).acc.val ≠ 0 ∧
      (at_ 2 805 0 false).neg = false ∧ (at_ 2 805 0 true).neg = true := by decide
theorem witness_HaltResult :
    (99 : Word).val ≤ 99 ∧ (at_ 99 99 0).runsCycle ∧ ((at_ 99 99 0).mem.read (at_ 99 99 0).pc.val).val ≤ 99 ∧
      (at_ 99 99 0).params.negFrame = .preserve ∧ (at_ 99 99 0 true [] clearing).params.negFrame = .clearOnOthers :=
  ⟨by decide, ⟨rfl, rfl⟩, by decide, rfl, rfl⟩
theorem witness_SumOfOneThousandBranchesOnZeroOnly :
    (99 : Nat) ≤ 99 ∧ (at_ 0 199 999 false [(99, 1)]).acc.val + ((at_ 0 199 999 false [(99, 1)]).mem.read 99).val = 1000 := by
  decide
theorem witness_InputWaits : (0 : Int) ≤ 0 ∧ (999 : Int) ≤ 999 := by decide
theorem witness_RejectedInputChangesNothing :
    (waiting []).run = .awaitingInput .num ∧ ((-1 : Int) < 0 ∨ (999 : Int) < -1) ∧ ((1000 : Int) < 0 ∨ (999 : Int) < 1000) := by
  decide
theorem witness_ResumeDeliversTheValue :
    (waiting []).run = .awaitingInput .num ∧ (0 : Int) ≤ 999 ∧ (999 : Int) ≤ 999 ∧ (waiting []).eom = false ∧
      ({ waiting [] with eom := true } : State).eom = true ∧ (waiting []).params.negFrame = .preserve ∧
      ({ waiting [] with params := clearing } : State).params.negFrame = .clearOnOthers := by decide
theorem witness_InputFromTheLastCellHaltsAfterResume :
    (at_ 99 901 0).runsCycle ∧ (at_ 99 901 0).pc.val = 99 ∧ ((at_ 99 901 0).mem.read 99).val = 901 :=
  ⟨⟨rfl, rfl⟩, rfl, by decide⟩
theorem witness_InvalidHaltsOrFaults :
    (Instr.invalidFamily 0).kind = .invalid ∧ (Instr.invalidSubcode 99).kind = .invalid ∧
      State.reset.params.invalidPolicy = .halt ∧ (at_ 0 400 0 false [] faultPolicy).params.invalidPolicy = .fault := by decide
theorem witness_InvalidWordEndsTheRun :
    (at_ 99 999 0).runsCycle ∧ (fetchedInstr (at_ 99 999 0)).kind = .invalid ∧
      (at_ 99 999 0).params.invalidPolicy = .halt ∧
      (fetchedInstr (at_ 99 999 0 false [] faultPolicy)).kind = .invalid ∧
      (at_ 99 999 0 false [] faultPolicy).params.invalidPolicy = .fault :=
  ⟨⟨rfl, rfl⟩, by decide, rfl, by decide, rfl⟩
theorem witness_StepRunsTheDecodedInstruction :
    (at_ 2 705 0).run = .running ∧ (at_ 2 705 0).requests = [] ∧
      decode (at_ 2 705 0).params.ext911 ((at_ 2 705 0).mem.read (at_ 2 705 0).pc.val) = .branchIfZero 5 ∧
      (after (at_ 2 901 0)).map (fun t => t.run) = some (.awaitingInput .num) := by decide
theorem witness_PendingRequestsAreTakenInOrder :
    State.reset.requests = [] ∧ (waiting [.resume 7, .step]).requests = .resume 7 :: [.step] := by decide
theorem witness_NegativeFlagAfterACycle :
    (at_ 1 520 0 true).runsCycle ∧ (fetchedInstr (at_ 1 520 0 true)).kind = .load ∧
      (fetchedInstr (at_ 1 902 0 true [] clearing)).kind = .output ∧
      (at_ 1 902 0 true [] clearing).params.negFrame = .clearOnOthers ∧
      (after (at_ 1 902 0 true [] clearing)).map (fun t => (t.run, t.neg)) = some (.running, false) :=
  ⟨⟨rfl, rfl⟩, by decide, by decide, rfl, by decide⟩
theorem witness_ProgramCounterAfterACycle :
    (at_ 99 700 0).runsCycle ∧ takenTarget (at_ 99 700 0) (fetchedInstr (at_ 99 700 0)) = some 0 ∧
      takenTarget (at_ 99 700 1) (fetchedInstr (at_ 99 700 1)) = none :=
  ⟨⟨rfl, rfl⟩, by decide, by decide⟩
theorem witness_EndOfMemoryHaltsAtZero :
    (at_ 99 799 5).runsCycle ∧ fallsThrough (at_ 99 799 5) (fetchedInstr (at_ 99 799 5)) = true ∧
      (at_ 99 799 5).pc.val = 99 ∧ fallsThrough (at_ 98 799 5) (fetchedInstr (at_ 98 799 5)) = true ∧
      (at_ 98 799 5).pc.val ≠ 99 :=
  ⟨⟨rfl, rfl⟩, by decide, rfl, by decide, by decide⟩
theorem witness_OnlyNamedWritersChangeTheAccumulator :
    ∃ t, transact .step (at_ 0 520 1 true [(20, 7)]) = .next t ∧ t.acc ≠ (at_ 0 520 1 true [(20, 7)]).acc :=
  ⟨_, rfl, by decide⟩
theorem witness_ACycleChangesAtMostTheStoredCell :
    ∃ t, transact .step (at_ 0 399 42) = .next t ∧ t.mem.read 99 ≠ (at_ 0 399 42).mem.read 99 := ⟨_, rfl, by decide⟩
theorem witness_StoreIsSeenByTheNextFetch :
    (at_ 3 304 902).runsCycle ∧ fetchedInstr (at_ 3 304 902) = .store 4 := ⟨⟨rfl, rfl⟩, by decide⟩
theorem witness_OutputLogGrowsByTheCyclesEvent :
    (∃ t, transact .step (at_ 0 902 9) = .next t) ∧ (∀ image, HostRequest.step ≠ .reset image) ∧
      (at_ 0 902 9).run = .running ∧ (fetchedInstr (at_ 0 902 9)).kind = .output ∧
      (fetchedInstr (at_ 0 922 65)).kind = .outputChar ∧ (HostRequest.resume 3 ≠ .step) :=
  ⟨⟨_, rfl⟩, fun _ h => (nomatch h), rfl, by decide, by decide, by decide⟩
theorem witness_WorkingRegisterIsNeverObserved :
    (at_ 0 902 9).run = .running ∧ ∃ t, transact .step { at_ 0 902 9 with ir := 999 } = .next t := ⟨rfl, ⟨_, rfl⟩⟩
theorem witness_FaultsArePrecise :
    ∃ t r, exec (.store 150) { State.reset with pc := 0 } = .next t ∧ (0 : Addr) = nextPc 99 ∧ State.reset.run = .running ∧
      t.run = .faulted r := ⟨_, _, rfl, by decide, rfl, rfl⟩
theorem witness_OnlyTheNamedCausesStopTheCore :
    (∃ t, transact .step (at_ 5 0 0) = .next t ∧ t.run = .halted) ∧
      (∃ t, transact .step (at_ 1 400 0 false [] faultPolicy) = .next t ∧ t.run = .faulted ⟨.invalidInstruction, 1, 400⟩) ∧
      (∃ t, transact (.resume 5) { waiting [] with eom := true } = .next t ∧ t.run ≠ (waiting []).run ∧ t.run = .halted) ∧
      (HostRequest.resume 5 ≠ .step) ∧
      ∃ t, exec (.load 100) State.reset = .next t ∧ t.run = .faulted ⟨.addressOutOfRange, 99, 100⟩ :=
  ⟨⟨_, rfl, by decide⟩, ⟨_, rfl, by decide⟩, ⟨_, rfl, by decide, by decide⟩, by decide, ⟨_, rfl, by decide⟩⟩
theorem witness_UnderTheHaltPolicyNoStepFaults :
    (at_ 1 400 0).params.invalidPolicy = .halt ∧ (at_ 1 400 0).safe ∧ ∃ t, step (at_ 1 400 0) = .next t :=
  ⟨rfl, fun _ h => (nomatch h), ⟨_, rfl⟩⟩
/-- Rows of R81 at the boundaries of their events: each cycle ends where the table says, by hand from the vectors TB12, TI1,
TI11, TV2, TV5, TB9, TB10 and TB11. -/
theorem witness_RunStateFollowsTheTransitionTable :
    ([at_ 5 0 0, at_ 0 901 0, at_ 0 911 0, at_ 1 400 0 false [] faultPolicy, at_ 99 900 0, at_ 99 799 5, at_ 99 700 0,
      at_ 98 799 5].map (runStateAfter .step)) =
      [.halted, .awaitingInput .num, .awaitingInput .char, .faulted ⟨.invalidInstruction, 1, 400⟩, .halted, .halted,
        .running, .running] := by decide
theorem witness_FaultedIsTerminal :
    ({ State.reset with run := .faulted ⟨.invalidInstruction, 1, 400⟩ } : State).run =
      .faulted ⟨.invalidInstruction, 1, 400⟩ ∧
    (∀ image, HostRequest.step ≠ .reset image) ∧
    ∃ t, transact (.reset image) { State.reset with run := .faulted ⟨.invalidInstruction, 1, 400⟩ } = .next t ∧
      t.run ≠ .faulted ⟨.invalidInstruction, 1, 400⟩ := ⟨rfl, fun _ h => (nomatch h), ⟨_, rfl, by decide +kernel⟩⟩
theorem witness_FinalStatesAreLeftByResetOnly :
    ({ State.reset with run := .halted } : State).run.final = true ∧
    ∃ t, transact (.reset image) { State.reset with run := .halted } = .next t ∧ t ≠ { State.reset with run := .halted } :=
  ⟨rfl, ⟨_, rfl, by decide +kernel⟩⟩
theorem witness_RequestsOutOfPlaceDoNothing :
    (waiting []).run ≠ .running ∧ ∀ k, State.reset.run ≠ .awaitingInput k := ⟨by decide, fun k => by cases k <;> decide⟩
theorem witness_AcceptedResetReinitialisesTheCore : image.length = 100 ∧ ∀ v ∈ image, 0 ≤ v ∧ v ≤ 999 := by
  decide +kernel
theorem witness_RefusedResetChangesNothing :
    image.tail.length ≠ 100 ∧ (∃ v ∈ [(-3 : Int)] ++ image.tail, v < 0 ∨ 999 < v) ∧
      ∃ v ∈ [(1000 : Int)] ++ image.tail, v < 0 ∨ 999 < v := by decide +kernel
theorem witness_SnapshotShowsTheCore : (99 : Nat) < 100 := by decide
theorem witness_StepsKeepTheParameters : ∃ t, step (waiting [.resume 7]) = .next t := ⟨_, rfl⟩
/-- A waiting state with the latch set meets the invariant, and a step leads on from it. -/
theorem witness_EveryStepKeepsTheCoreConditions :
    ({ waiting [.resume 7] with pc := 0, eom := true } : State).Inv ∧
      ∃ t, step { waiting [.resume 7] with pc := 0, eom := true } = .next t where
  left :=
    { memCanonical := by decide
      latchStopped := fun _ => ⟨rfl, .inl ⟨.num, rfl⟩⟩
      waitOfInput := fun k h => by cases h; decide
      faultOfInvalid := fun r h => nomatch h }
  right := ⟨_, rfl⟩

end Sys2Proof.Tests
end

/-! ## What one operation can do

The inversion lemmas of the transition functions: `ExecEffect` for the execute phase of an instruction that some word
decodes to, `TransactEffect` for a host operation. The statements about the state below go through them. -/

namespace Sys2Proof.Machine

/-! ### Decoded instructions are well formed (R61, R62, R64) -/

theorem decodeSubcode_wellFormed (ext : Ext911) (ss : Fin 100) : (decodeSubcode ext ss).wellFormed ext = true := by
  unfold decodeSubcode
  split_ifs with h1 h2 h11 h22
  · rfl
  · rfl
  · cases ext with
    | inputChar => rfl
    | invalid => subst h11; rfl
  · rfl
  · simp [Instr.wellFormed, subcodeIsInvalid, h1, h2, h11, h22]

theorem decode_wellFormed (ext : Ext911) (w : Word) : (decode ext w).wellFormed ext = true := by
  have hoperand := (operandField w).isLt
  unfold decode
  split
  case h_10 => exact decodeSubcode_wellFormed ext (operandField w)
  all_goals simp [Instr.wellFormed, hoperand]

theorem fetchedInstr_wellFormed (s : State) : (fetchedInstr s).wellFormed s.params.ext911 = true :=
  decode_wellFormed _ _

/-! ### Branches taken (R130 to R133) -/

/-- Only the three branches have a target to take. -/
theorem kind_of_takenTarget {s : State} {i : Instr} {a : Addr} (h : takenTarget s i = some a) :
    i.kind = .branchAlways ∨ i.kind = .branchIfZero ∨ i.kind = .branchIfPositive := by
  cases i with
  | branchAlways _ => exact .inl rfl
  | branchIfZero _ => exact .inr (.inl rfl)
  | branchIfPositive _ => exact .inr (.inr rfl)
  | _ => cases h

theorem takenTarget_eq_none {i : Instr} (s : State)
    (h : i.kind ≠ .branchAlways ∧ i.kind ≠ .branchIfZero ∧ i.kind ≠ .branchIfPositive) : takenTarget s i = none := by
  obtain ⟨halways, hzero, hpositive⟩ := h
  cases htarget : takenTarget s i with
  | none => rfl
  | some a =>
    rcases kind_of_takenTarget htarget with hk | hk | hk
    · exact absurd hk halways
    · exact absurd hk hzero
    · exact absurd hk hpositive

/-- Fetch leaves what the branches test, `acc` and `neg`, as it is. -/
theorem takenTarget_fetch (s : State) (i : Instr) : takenTarget (fetch s) i = takenTarget s i := by
  cases i <;> rfl

/-! ### Execute (R86) -/

/-- What executing `i` can make of `s`, for an `i` that some word decodes to: which elements of the state it writes, and
under which condition. -/
inductive ExecEffect (i : Instr) (s : State) : State → Prop
  | alu (x : Word) (b : Bool) (hk : i.kind = .add ∨ i.kind = .subtract) : ExecEffect i s { s with acc := x, neg := b }
  | load (x : Word) (hk : i.kind = .load) : ExecEffect i s { s with acc := x }
  | store (a : Nat) (ha : a ≤ 99) (hi : i = .store a) : ExecEffect i s { s with mem := s.mem.write a s.acc }
  | branch (a : Addr) (ht : takenTarget s i = some a) : ExecEffect i s { s with pc := a, eom := false }
  | noBranch (hk : i.kind = .branchIfZero ∨ i.kind = .branchIfPositive) (ht : takenTarget s i = none) :
      ExecEffect i s s
  | output (hk : i.kind = .output) : ExecEffect i s { s with out := s.out ++ [.num s.acc] }
  | outputChar (hk : i.kind = .outputChar) : ExecEffect i s { s with out := s.out ++ [.char s.acc] }
  | wait (k : InputKind) (hk : i.kind = k.instrKind) : ExecEffect i s { s with run := .awaitingInput k }
  | halt (hk : i.kind = .halt ∨ i.kind = .invalid ∧ s.params.invalidPolicy = .halt) :
      ExecEffect i s { s with run := .halted }
  | fault (hk : i.kind = .invalid) (hp : s.params.invalidPolicy = .fault) :
      ExecEffect i s { s with run := .faulted ⟨.invalidInstruction, fetchPc s, s.ir.val⟩ }

theorem invalidInstruction_effect {i : Instr} (s : State) (hk : i.kind = .invalid) :
    ExecEffect i s (invalidInstruction s) := by
  rcases invalidInstruction_cases s with ⟨hp, heq⟩ | ⟨hp, heq⟩
  · rw [heq]
    exact .halt (.inr ⟨hk, hp⟩)
  · rw [heq]
    exact .fault hk hp

/-- A memory operand that is an address never faults, so each instruction has its one effect. -/
theorem exec_effect {ext : Ext911} {i : Instr} (s : State) (hwf : i.wellFormed ext = true) :
    ∃ t, exec i s = .next t ∧ ExecEffect i s t := by
  have address {a : Nat} (h : decide (a < 100) = true) : a ≤ 99 := Nat.le_of_lt_succ (of_decide_eq_true h)
  cases i with
  | halt => exact ⟨_, exec_halt s, .halt (.inl rfl)⟩
  | add a => exact ⟨_, exec_add_of_le s (address hwf), .alu _ _ (.inl rfl)⟩
  | subtract a => exact ⟨_, exec_subtract_of_le s (address hwf), .alu _ _ (.inr rfl)⟩
  | store a => exact ⟨_, exec_store_of_le s (address hwf), .store a (address hwf) rfl⟩
  | load a => exact ⟨_, exec_load_of_le s (address hwf), .load _ rfl⟩
  | branchAlways a => exact ⟨_, exec_branchAlways s a, .branch a rfl⟩
  | branchIfZero a =>
    refine ⟨_, exec_branchIfZero s a, ?_⟩
    split_ifs with hz
    · exact .branch a (if_pos hz)
    · exact .noBranch (.inl rfl) (if_neg hz)
  | branchIfPositive a =>
    refine ⟨_, exec_branchIfPositive s a, ?_⟩
    split_ifs with hn
    · exact .branch a (if_pos hn)
    · exact .noBranch (.inr rfl) (if_neg hn)
  | input => exact ⟨_, exec_input s, .wait .num rfl⟩
  | output => exact ⟨_, exec_output s, .output rfl⟩
  | inputChar => exact ⟨_, exec_inputChar s, .wait .char rfl⟩
  | outputChar => exact ⟨_, exec_outputChar s, .outputChar rfl⟩
  | invalidFamily x => exact ⟨_, exec_invalidFamily s x, invalidInstruction_effect s rfl⟩
  | invalidSubcode ss => exact ⟨_, exec_invalidSubcode s ss, invalidInstruction_effect s rfl⟩

/-- The execute phase of a cycle: it follows the fetch, and its instruction is a decoded one. -/
theorem exec_fetched_effect (s : State) :
    ∃ u, exec (fetchedInstr s) (fetch s) = .next u ∧ ExecEffect (fetchedInstr s) (fetch s) u :=
  exec_effect (fetch s) (fetchedInstr_wellFormed s)

namespace ExecEffect

variable {i : Instr} {s t : State}

/-- R120: a STORE is the only writer of memory, and it keeps the canonical form. -/
theorem mem_wf (h : ExecEffect i s t) (hm : s.mem.wf = true) : t.mem.wf = true := by
  cases h with
  | store a ha _ => exact Memory.wf_write s.mem a s.acc (Nat.lt_succ_of_le ha) hm
  | _ => exact hm

/-- R21: the writers of the accumulator. -/
theorem acc_cases (h : ExecEffect i s t) :
    (i.kind = .add ∨ i.kind = .subtract ∨ i.kind = .load) ∨ t.acc = s.acc := by
  cases h with
  | alu _ _ hk => exact .inl (hk.imp_right .inl)
  | load _ hk => exact .inl (.inr (.inr hk))
  | _ => exact .inr rfl

/-- R27: the two writers of the output log. -/
theorem out_cases (h : ExecEffect i s t) :
    (i.kind = .output ∧ t.out = s.out ++ [.num s.acc]) ∨
    (i.kind = .outputChar ∧ t.out = s.out ++ [.char s.acc]) ∨
    (i.kind ≠ .output ∧ i.kind ≠ .outputChar ∧ t.out = s.out) := by
  cases h with
  | output hk => exact .inl ⟨hk, rfl⟩
  | outputChar hk => exact .inr (.inl ⟨hk, rfl⟩)
  | alu _ _ hk => rcases hk with hk | hk <;> simp [hk]
  | load _ hk => simp [hk]
  | store _ _ hi => simp [hi, Instr.kind]
  | branch _ ht => rcases kind_of_takenTarget ht with hk | hk | hk <;> simp [hk]
  | noBranch hk _ => rcases hk with hk | hk <;> simp [hk]
  | wait k hk => cases k <;> simp [hk, InputKind.instrKind]
  | halt hk => rcases hk with hk | ⟨hk, -⟩ <;> simp [hk]
  | fault hk _ => simp [hk]

/-- R23: a taken branch writes `pc` (and clears the latch with it); nothing else in execute writes `pc`. -/
theorem pc_cases (h : ExecEffect i s t) :
    (∃ a, takenTarget s i = some a ∧ t = { s with pc := a, eom := false }) ∨
    (takenTarget s i = none ∧ t.pc = s.pc) := by
  cases h with
  | branch a ht => exact .inl ⟨a, ht, rfl⟩
  | noBranch _ ht => exact .inr ⟨ht, rfl⟩
  | alu _ _ hk => exact .inr ⟨takenTarget_eq_none s (by rcases hk with hk | hk <;> simp [hk]), rfl⟩
  | load _ hk => exact .inr ⟨takenTarget_eq_none s (by simp [hk]), rfl⟩
  | store _ _ hi => exact .inr ⟨takenTarget_eq_none s (by simp [hi, Instr.kind]), rfl⟩
  | output hk => exact .inr ⟨takenTarget_eq_none s (by simp [hk]), rfl⟩
  | outputChar hk => exact .inr ⟨takenTarget_eq_none s (by simp [hk]), rfl⟩
  | wait k hk => exact .inr ⟨takenTarget_eq_none s (by cases k <;> simp [hk, InputKind.instrKind]), rfl⟩
  | halt hk => exact .inr ⟨takenTarget_eq_none s (by rcases hk with hk | ⟨hk, -⟩ <;> simp [hk]), rfl⟩
  | fault hk _ => exact .inr ⟨takenTarget_eq_none s (by simp [hk]), rfl⟩

/-- From `Running`, execute goes on or halts; or it is stopped short of completion by an input instruction or by an
invalid one under the policy `Fault`, and then it wrote the run state only. -/
theorem run_cases (h : ExecEffect i s t) (hr : s.run = .running) :
    (t.run = .running ∨ t.run = .halted) ∨
    (∃ k : InputKind, i.kind = k.instrKind ∧ t = { s with run := .awaitingInput k }) ∨
    (i.kind = .invalid ∧ s.params.invalidPolicy = .fault ∧
      t = { s with run := .faulted ⟨.invalidInstruction, fetchPc s, s.ir.val⟩ }) := by
  cases h with
  | wait k hk => exact .inr (.inl ⟨k, hk, rfl⟩)
  | fault hk hp => exact .inr (.inr ⟨hk, hp, rfl⟩)
  | halt _ => exact .inl (.inr rfl)
  | _ => exact .inl (.inl hr)

end ExecEffect

/-! ### Completion (R87) -/

/-- Completion, where it runs, writes `neg`, `run` and `eom` and nothing else. -/
theorem completeUnlessStopped_frame (k : Kind) (s : State) :
    completeUnlessStopped k s =
      { s with neg := (completeUnlessStopped k s).neg, run := (completeUnlessStopped k s).run,
               eom := (completeUnlessStopped k s).eom } := by
  rcases completeUnlessStopped_cases k s with ⟨-, heq⟩ | ⟨-, heq⟩
  · rw [heq, complete_eq]
  · rw [heq]

section CompletionFrame

variable (k : Kind) (s : State)

@[simp] theorem completeUnlessStopped_mem : (completeUnlessStopped k s).mem = s.mem := by
  rw [completeUnlessStopped_frame]

@[simp] theorem completeUnlessStopped_acc : (completeUnlessStopped k s).acc = s.acc := by
  rw [completeUnlessStopped_frame]

@[simp] theorem completeUnlessStopped_pc : (completeUnlessStopped k s).pc = s.pc := by
  rw [completeUnlessStopped_frame]

@[simp] theorem completeUnlessStopped_out : (completeUnlessStopped k s).out = s.out := by
  rw [completeUnlessStopped_frame]

@[simp] theorem completeUnlessStopped_params : (completeUnlessStopped k s).params = s.params := by
  rw [completeUnlessStopped_frame]

@[simp] theorem completeUnlessStopped_requests : (completeUnlessStopped k s).requests = s.requests := by
  rw [completeUnlessStopped_frame]

end CompletionFrame

theorem completeUnlessStopped_of_settled (k : Kind) {s : State} (h : s.run = .running ∨ s.run = .halted) :
    completeUnlessStopped k s = complete k s := by
  rcases h with h | h <;> simp only [completeUnlessStopped, h]

theorem completedRun_of_eom_false {s : State} (h : s.eom = false) : completedRun s = s.run := by
  unfold completedRun
  rw [h]

theorem completedRun_settled {s : State} (h : s.run = .running ∨ s.run = .halted) :
    completedRun s = .running ∨ completedRun s = .halted := by
  rcases completedRun_cases s with ⟨-, -, heq⟩ | ⟨-, heq⟩
  · exact .inr heq
  · rwa [heq]

/-! ### The host's operations (R92) -/

theorem hostStep_of_running {s : State} (h : s.run = .running) : hostStep s = cycle s := by
  simp only [hostStep, h]

theorem hostStep_of_not_running {s : State} (h : s.run ≠ .running) : hostStep s = .next s :=
  ((hostStep_cases s).resolve_left fun hrunning => h hrunning.1).2

/-- What a host operation can make of `s`: a cycle, the delivery of an input value, the load of an image, or nothing. -/
inductive TransactEffect (s : State) : HostRequest → State → Prop
  | cycle (u : State) (hr : s.run = .running) (hexec : exec (fetchedInstr s) (fetch s) = .next u)
      (hu : ExecEffect (fetchedInstr s) (fetch s) u) :
      TransactEffect s .step (completeUnlessStopped (fetchedInstr s).kind u)
  | delivery (v : Int) (k : InputKind) (w : Word) (hr : s.run = .awaitingInput k) (hv : wordOfInt v = some w) :
      TransactEffect s (.resume v) (complete k.instrKind { s with acc := w, run := .running })
  | load (image : List Int) (ws : List Word) (hl : image.length = numCells) (hw : wordsOfImage image = some ws) :
      TransactEffect s (.reset image)
        { State.reset with mem := Memory.ofWords 0 ws, params := s.params, requests := s.requests }
  | nothing (q : HostRequest) (hq : q = .step → s.run ≠ .running) : TransactEffect s q s

/-- Every host operation answers a next state, with one of these effects. -/
theorem transact_effect (q : HostRequest) (s : State) : ∃ t, transact q s = .next t ∧ TransactEffect s q t := by
  cases q with
  | reset image =>
    refine ⟨hostReset image s, rfl, ?_⟩
    rcases hostReset_cases image s with ⟨ws, hl, hw, -, heq⟩ | ⟨-, -, heq⟩
    · rw [heq]
      exact .load image ws hl hw
    · rw [heq]
      exact .nothing _ (fun h => nomatch h)
  | step =>
    by_cases hr : s.run = .running
    · obtain ⟨u, hexec, hu⟩ := exec_fetched_effect s
      exact ⟨_, (hostStep_of_running hr).trans (cycle_of_exec hexec), .cycle u hr hexec hu⟩
    · exact ⟨s, hostStep_of_not_running hr, .nothing _ (fun _ => hr)⟩
  | resume v =>
    refine ⟨hostResume v s, rfl, ?_⟩
    rcases hostResume_cases v s with ⟨k, w, hr, hv, heq⟩ | ⟨-, heq⟩
    · rw [heq]
      exact .delivery v k w hr hv
    · rw [heq]
      exact .nothing _ (fun h => nomatch h)
  | snapshot => exact ⟨s, rfl, .nothing _ (fun h => nomatch h)⟩

theorem effect_of_transact {q : HostRequest} {s t : State} (h : transact q s = .next t) : TransactEffect s q t := by
  obtain ⟨t', h', heffect⟩ := transact_effect q s
  rw [h] at h'
  cases h'
  exact heffect

/-- A step that runs a cycle is the cycle of its state without the request it took. -/
theorem step_of_runsCycle {s : State} (h : s.runsCycle) :
    ∃ u, step s = .next (completeUnlessStopped (fetchedInstr s).kind u) ∧
      ExecEffect (fetchedInstr s) (fetch (takeRequest s)) u := by
  obtain ⟨hr, hq⟩ := h
  obtain ⟨t, ht, heffect⟩ := transact_effect .step (takeRequest s)
  cases heffect with
  | cycle u _ _ hu => exact ⟨u, by rw [step, hq]; exact ht, hu⟩
  | nothing _ hne => exact absurd hr (hne rfl)

/-! ## The obligations about the state -/

/-! ### The core invariant (R31) -/

/-- Outside a wait and a fault the invariant asks only for the memory's form and a clear latch. -/
theorem State.Inv.of_settled {t : State} (hm : t.mem.wf = true) (he : t.eom = false)
    (hr : t.run = .running ∨ t.run = .halted) : t.Inv where
  memCanonical := hm
  latchStopped h := by simp [he] at h
  waitOfInput k h := by simp [h] at hr
  faultOfInvalid r h := by simp [h] at hr

theorem complete_inv (k : Kind) {u : State} (hm : u.mem.wf = true) (hr : u.run = .running ∨ u.run = .halted) :
    (complete k u).Inv :=
  .of_settled hm rfl (completedRun_settled hr)

/-- R84: the latch that fetch sets stands for an increment from 99 to 0. -/
theorem pc_fetch_of_eom {s : State} (h : (fetch s).eom = true) : (fetch s).pc = 0 := by
  have hlast : s.pc = 99 := Fin.ext (of_decide_eq_true h)
  rw [fetch_eq, hlast, nextPc_of_last]

/-- An execute phase stopped by INPUT or INPUT-CHAR: the fetch latched `ir`, `eom` and `pc`, and the wait was added. -/
theorem waiting_inv {s : State} {k : InputKind} (hm : s.mem.wf = true) (hk : (fetchedInstr s).kind = k.instrKind) :
    State.Inv { fetch s with run := .awaitingInput k } where
  memCanonical := hm
  latchStopped h := ⟨pc_fetch_of_eom h, .inl ⟨k, rfl⟩⟩
  waitOfInput k' h := by cases h; exact hk
  faultOfInvalid r h := nomatch h

/-- An execute phase stopped by an invalid word under the policy `Fault`. -/
theorem faulted_inv {s : State} (hm : s.mem.wf = true) (hk : (fetchedInstr s).kind = .invalid)
    (hp : s.params.invalidPolicy = .fault) :
    State.Inv { fetch s with run := .faulted ⟨.invalidInstruction, fetchPc (fetch s), (fetch s).ir.val⟩ } where
  memCanonical := hm
  latchStopped h := ⟨pc_fetch_of_eom h, .inr ⟨_, rfl⟩⟩
  waitOfInput k h := nomatch h
  faultOfInvalid r h := by
    cases h
    exact ⟨rfl, hp, rfl, by rw [fetchPc_fetch]; rfl, hk⟩

theorem cycle_keeps_inv {s u : State} (hs : s.Inv) (hr : s.run = .running)
    (hu : ExecEffect (fetchedInstr s) (fetch s) u) :
    (completeUnlessStopped (fetchedInstr s).kind u).Inv := by
  rcases hu.run_cases hr with hsettled | ⟨k, hk, rfl⟩ | ⟨hk, hp, rfl⟩
  · rw [completeUnlessStopped_of_settled _ hsettled]
    exact complete_inv _ (hu.mem_wf hs.memCanonical) hsettled
  · exact waiting_inv hs.memCanonical hk
  · exact faulted_inv hs.memCanonical hk hp

theorem transact_keeps_inv {q : HostRequest} {s t : State} (hs : s.Inv) (h : transact q s = .next t) : t.Inv := by
  cases effect_of_transact h with
  | cycle u hr _ hu => exact cycle_keeps_inv hs hr hu
  | delivery v k w _ _ => exact complete_inv _ hs.memCanonical (.inl rfl)
  | load image ws hl hw =>
    have hlength : ws.length ≤ numCells := (wordsOfImage_length hw).trans hl |>.le
    exact .of_settled (Memory.wf_ofWords ws hlength) rfl (.inl rfl)
  | nothing _ _ => exact hs

/-- The pending requests are no part of the invariant. -/
theorem takeRequest_inv {s : State} (h : s.Inv) : (takeRequest s).Inv where
  memCanonical := h.memCanonical
  latchStopped := h.latchStopped
  waitOfInput := h.waitOfInput
  faultOfInvalid := h.faultOfInvalid

/-- Settles O56: taking a request keeps the invariant, and so does each effect that a host operation can have. -/
theorem everyStepKeepsTheCoreConditions : Obligations.EveryStepKeepsTheCoreConditions :=
  fun _ _ hs h => transact_keeps_inv (takeRequest_inv hs) h

/-- Settles O55. -/
theorem resetSatisfiesTheCoreConditions : Obligations.ResetSatisfiesTheCoreConditions :=
  .of_settled Memory.wf_nil rfl (.inl rfl)

/-! ### The program counter (R23) -/

/-- A taken branch cleared the latch, so its cycle ends in `Running` also from 99. -/
theorem completeUnlessStopped_run_of_eom_false (k : Kind) {u : State} (hr : u.run = .running) (he : u.eom = false) :
    (completeUnlessStopped k u).run = .running := by
  rw [completeUnlessStopped_of_settled k (.inl hr)]
  exact (completedRun_of_eom_false he).trans hr

/-- Settles O36, by the two things execute can do to `pc`. -/
theorem programCounterAfterACycle : Obligations.ProgramCounterAfterACycle := by
  intro s hs
  obtain ⟨u, hstep, hu⟩ := step_of_runsCycle hs
  have htarget : takenTarget (fetch (takeRequest s)) (fetchedInstr s) = takenTarget s (fetchedInstr s) :=
    takenTarget_fetch s (fetchedInstr s)
  refine ⟨_, hstep, ?_⟩
  rcases hu.pc_cases with ⟨a, ht, rfl⟩ | ⟨ht, hpc⟩
  · rw [htarget] at ht
    refine ⟨fun b hb => ?_, fun hnone => ?_⟩
    · rw [ht] at hb
      cases hb
      exact ⟨completeUnlessStopped_pc _ _, completeUnlessStopped_run_of_eom_false _ hs.1 rfl⟩
    · simp [ht] at hnone
  · rw [htarget] at ht
    refine ⟨fun b hb => ?_, fun _ => ?_⟩
    · simp [ht] at hb
    · rw [completeUnlessStopped_pc, hpc]
      exact nextPc_val s.pc

/-! ### The accumulator (R21) and the output log (R27) -/

/-- Settles O38. -/
theorem onlyNamedWritersChangeTheAccumulator : Obligations.OnlyNamedWritersChangeTheAccumulator := by
  intro q s t h hne
  cases effect_of_transact h with
  | cycle u hr _ hu =>
    refine .inl ⟨rfl, hr, hu.acc_cases.resolve_right fun hacc => hne ?_⟩
    exact (completeUnlessStopped_acc _ u).trans hacc
  | delivery v k _ hr _ => exact .inr (.inl ⟨v, k, rfl, hr⟩)
  | load image _ _ _ => exact .inr (.inr ⟨image, rfl⟩)
  | nothing _ _ => exact absurd rfl hne

/-- Settles O41: outside a cycle only the load of an image writes the log. -/
theorem outputLogGrowsByTheCyclesEvent : Obligations.OutputLogGrowsByTheCyclesEvent := by
  intro q s t h hreset
  cases effect_of_transact h with
  | cycle u hr _ hu =>
    rw [completeUnlessStopped_out]
    rcases hu.out_cases with ⟨hk, hout⟩ | ⟨hk, hout⟩ | ⟨hnum, hchar, hout⟩
    · simp [hr, hk, hout, fetch_eq]
    · simp [hr, hk, hout, fetch_eq]
    · simp [hnum, hchar, hout, fetch_eq]
  | delivery v k w _ _ => exact ⟨nofun, nofun, fun _ => rfl⟩
  | load image _ _ _ => exact absurd rfl (hreset image)
  | nothing _ hq =>
    exact ⟨fun hstep hr => absurd hr (hq hstep), fun hstep hr => absurd hr (hq hstep), fun _ => rfl⟩

/-! ### The working register (R28) -/

/-- A cycle starts by overwriting `ir`, so it does not see the old value. -/
theorem cycle_withIr (s : State) (w : Word) : cycle (s.withIr w) = cycle s := rfl

theorem hostStep_withIr_of_running {s : State} (w : Word) (hr : s.run = .running) :
    hostStep (s.withIr w) = hostStep s := by
  have hr' : (s.withIr w).run = .running := hr
  rw [hostStep_of_running hr', hostStep_of_running hr, cycle_withIr]

theorem hostReply_withIr (q : HostRequest) (s : State) (w : Word) : hostReply q (s.withIr w) = hostReply q s := by
  cases q <;> rfl

theorem hostResume_withIr (v : Int) (s : State) (w : Word) :
    hostResume v (s.withIr w) = (hostResume v s).withIr w := by
  rcases hostResume_cases v s with ⟨k, x, hr, hv, heq⟩ | ⟨hno, heq⟩
  · have hr' : (s.withIr w).run = .awaitingInput k := hr
    rw [heq]
    simp only [hostResume, hr', hv]
    rfl
  · rcases hostResume_cases v (s.withIr w) with ⟨k, x, hr, hv, -⟩ | ⟨-, heq'⟩
    · rcases hno with hno | hno
      · simp [hv] at hno
      · exact absurd hr (hno k)
    · rw [heq, heq']

/-- An accepted image gives the same state whatever `ir` held; a refused one leaves `ir` as it was. -/
theorem hostReset_withIr (image : List Int) (s : State) (w : Word) :
    ∃ x, hostReset image (s.withIr w) = (hostReset image s).withIr x := by
  cases himage : acceptedImage image with
  | some ws => exact ⟨State.reset.ir, by simp only [hostReset, himage]; rfl⟩
  | none => exact ⟨w, by simp only [hostReset, himage]⟩

/-- Settles O42, operation by operation. -/
theorem workingRegisterIsNeverObserved : Obligations.WorkingRegisterIsNeverObserved := by
  intro q s w
  refine ⟨hostReply_withIr q s w, ?_⟩
  cases q with
  | reset image =>
    obtain ⟨x, hx⟩ := hostReset_withIr image s w
    exact ⟨_, _, rfl, congrArg Host.Outcome.next hx, rfl, nofun⟩
  | step =>
    by_cases hr : s.run = .running
    · obtain ⟨t, ht, -⟩ := transact_effect .step s
      exact ⟨t, t, ht, (hostStep_withIr_of_running w hr).trans ht, rfl, fun _ _ => rfl⟩
    · exact ⟨s, s.withIr w, hostStep_of_not_running hr, hostStep_of_not_running (s := s.withIr w) hr, rfl,
        fun _ hrunning => absurd hrunning hr⟩
  | resume v => exact ⟨_, _, rfl, congrArg Host.Outcome.next (hostResume_withIr v s w), rfl, nofun⟩
  | snapshot => exact ⟨_, _, rfl, rfl, rfl, nofun⟩

/-! ### The parameters (R20) and the pending requests -/

/-- No host operation writes the parameters or the requests still to come. -/
theorem transact_keeps_config {q : HostRequest} {s t : State} (h : transact q s = .next t) :
    t.params = s.params ∧ t.requests = s.requests := by
  cases effect_of_transact h with
  | cycle u _ hexec _ =>
    obtain ⟨-, hparams, hrequests⟩ := exec_keeps_hidden hexec
    exact ⟨(completeUnlessStopped_params _ u).trans hparams, (completeUnlessStopped_requests _ u).trans hrequests⟩
  | delivery v k w _ _ => exact ⟨rfl, rfl⟩
  | load image ws _ _ => exact ⟨rfl, rfl⟩
  | nothing _ _ => exact ⟨rfl, rfl⟩

/-- Settles O54. -/
theorem stepsKeepTheParameters : Obligations.StepsKeepTheParameters :=
  fun _ _ h => transact_keeps_config h

end Sys2Proof.Machine

/-! ## The obligations about memory -/

namespace Sys2Proof.Machine

/-! ### Reading and the canonical form (R40) -/

theorem Memory.sortedFrom_cons {lo k : Nat} {w : Word} {rest : Memory} :
    Memory.sortedFrom lo ((k, w) :: rest) = true ↔
      lo ≤ k ∧ k < numCells ∧ w ≠ Memory.unlisted ∧ Memory.sortedFrom (k + 1) rest = true := by
  simp [Memory.sortedFrom, and_assoc]

theorem Memory.sortedFrom_head {lo k : Nat} {w : Word} {rest : Memory}
    (h : Memory.sortedFrom lo ((k, w) :: rest) = true) : Memory.sortedFrom k ((k, w) :: rest) = true :=
  Memory.sortedFrom_cons.mpr ⟨le_rfl, (Memory.sortedFrom_cons.mp h).2⟩

@[simp] theorem Memory.read_cons_self (k : Nat) (w : Word) (rest : Memory) : Memory.read ((k, w) :: rest) k = w :=
  if_pos rfl

theorem Memory.read_cons_of_ne {k a : Nat} (w : Word) (rest : Memory) (h : a ≠ k) :
    Memory.read ((k, w) :: rest) a = Memory.read rest a :=
  if_neg h.symm

theorem Memory.read_below_sortedFrom {lo a : Nat} {m : Memory} (hm : Memory.sortedFrom lo m = true) (ha : a < lo) :
    m.read a = Memory.unlisted := by
  induction m generalizing lo with
  | nil => rfl
  | cons c rest ih =>
    obtain ⟨hk, -, -, hrest⟩ := Memory.sortedFrom_cons.mp hm
    rw [Memory.read_cons_of_ne _ _ (by omega)]
    exact ih hrest (by omega)

/-- The first entry of a canonical memory is seen by a read, so another memory with the same cells cannot start above
it. -/
theorem Memory.start_le_of_read_eq {lo lo' k : Nat} {w : Word} {rest m : Memory}
    (hm : Memory.sortedFrom lo ((k, w) :: rest) = true) (hm' : Memory.sortedFrom lo' m = true)
    (h : ∀ a < numCells, Memory.read ((k, w) :: rest) a = m.read a) : lo' ≤ k := by
  obtain ⟨-, hk, hw, -⟩ := Memory.sortedFrom_cons.mp hm
  by_contra hlt
  have hread : w = m.read k := by simpa using h k hk
  exact hw (hread.trans (Memory.read_below_sortedFrom hm' (by omega)))

/-- By comparing the first entries: they have the same address, so the same word, and the rests agree on every cell. -/
theorem Memory.eq_of_read_eq {lo : Nat} {m m' : Memory} (hm : Memory.sortedFrom lo m = true)
    (hm' : Memory.sortedFrom lo m' = true) (h : ∀ a < numCells, m.read a = m'.read a) : m = m' := by
  induction m generalizing lo m' with
  | nil =>
    cases m' with
    | nil => rfl
    | cons c' rest' =>
      have hstart := Memory.start_le_of_read_eq (lo' := c'.1 + 1) hm' rfl fun a ha => (h a ha).symm
      omega
  | cons c rest ih =>
    obtain ⟨k, w⟩ := c
    obtain ⟨-, hk, -, hrest⟩ := Memory.sortedFrom_cons.mp hm
    cases m' with
    | nil =>
      have hstart := Memory.start_le_of_read_eq (lo' := k + 1) hm rfl h
      omega
    | cons c' rest' =>
      obtain ⟨k', w'⟩ := c'
      obtain ⟨-, -, -, hrest'⟩ := Memory.sortedFrom_cons.mp hm'
      obtain rfl : k = k' := Nat.le_antisymm
        (Memory.start_le_of_read_eq hm' (Memory.sortedFrom_head hm) fun a ha => (h a ha).symm)
        (Memory.start_le_of_read_eq hm (Memory.sortedFrom_head hm') h)
      obtain rfl : w = w' := by simpa using h k hk
      have hcells : ∀ a < numCells, Memory.read rest a = Memory.read rest' a := by
        intro a ha
        by_cases hak : a = k
        · rw [Memory.read_below_sortedFrom hrest (by omega), Memory.read_below_sortedFrom hrest' (by omega)]
        · simpa [Memory.read_cons_of_ne _ _ hak] using h a ha
      rw [ih hrest hrest' hcells]

/-- Settles O10. -/
theorem equalCellsMakeEqualMemories : Obligations.EqualCellsMakeEqualMemories :=
  fun _ _ hm hm' h => Memory.eq_of_read_eq hm hm' fun a ha => h a (Nat.le_of_lt_succ ha)

/-! ### One access (R41, R42) -/

/-- Settles O8. -/
theorem memWriteChangesOneCellOrFaults : Obligations.MemWriteChangesOneCellOrFaults := by
  intro a v s
  refine ⟨fun ha => ⟨s.mem.write a v, memWrite_of_le v s ha, ?_, fun b hb => ?_⟩, fun ha => ?_⟩
  · rw [Memory.read_write, if_pos rfl]
  · rw [Memory.read_write, if_neg hb]
  · rw [memWrite_of_gt v s ha, raiseFault_eq]

theorem memRead_of_gt {a : Nat} (s : State) (h : 99 < a) : memRead a s = none := if_pos h

/-- Settles O9. -/
theorem memReadGivesTheCellOrFaults : Obligations.MemReadGivesTheCellOrFaults := by
  intro a s
  refine ⟨fun ha => ⟨memRead_of_le s ha, fun k => withOperand_of_le s k ha⟩,
    fun ha => ⟨memRead_of_gt s ha, fun k => ?_⟩⟩
  rw [withOperand_of_gt s k ha, raiseFault_eq]

/-! ### A cycle's write to memory (R43, R51) -/

/-- R120: a STORE writes its cell and nothing else; no other instruction writes memory. -/
theorem ExecEffect.mem_cases {i : Instr} {s t : State} (h : ExecEffect i s t) :
    (∃ a, i = .store a ∧ t = { s with mem := s.mem.write a s.acc }) ∨ (i.kind ≠ .store ∧ t.mem = s.mem) := by
  cases h with
  | store a _ hi => exact .inl ⟨a, hi, rfl⟩
  | alu _ _ hk => exact .inr ⟨by rcases hk with hk | hk <;> simp [hk], rfl⟩
  | load _ hk => exact .inr ⟨by simp [hk], rfl⟩
  | branch _ ht => exact .inr ⟨by rcases kind_of_takenTarget ht with hk | hk | hk <;> simp [hk], rfl⟩
  | noBranch hk _ => exact .inr ⟨by rcases hk with hk | hk <;> simp [hk], rfl⟩
  | output hk => exact .inr ⟨by simp [hk], rfl⟩
  | outputChar hk => exact .inr ⟨by simp [hk], rfl⟩
  | wait k hk => exact .inr ⟨by cases k <;> simp [hk, InputKind.instrKind], rfl⟩
  | halt hk => exact .inr ⟨by rcases hk with hk | ⟨hk, -⟩ <;> simp [hk], rfl⟩
  | fault hk _ => exact .inr ⟨by simp [hk], rfl⟩

theorem ExecEffect.eq_of_store {a : Nat} {s t : State} (h : ExecEffect (.store a) s t) :
    t = { s with mem := s.mem.write a s.acc } := by
  rcases h.mem_cases with ⟨b, hb, ht⟩ | ⟨hk, -⟩
  · cases hb
    exact ht
  · exact absurd rfl hk

/-- Settles O39: a changed cell is the one that the write of the cycle's STORE names. -/
theorem aCycleChangesAtMostTheStoredCell : Obligations.ACycleChangesAtMostTheStoredCell := by
  intro q s t b h hne
  cases effect_of_transact h with
  | cycle u hr _ hu =>
    rw [completeUnlessStopped_mem] at hne ⊢
    rcases hu.mem_cases with ⟨a, hi, rfl⟩ | ⟨-, hmem⟩
    · have hread : (s.mem.write a s.acc).read b = if b = a then s.acc else s.mem.read b :=
        Memory.read_write s.mem a b s.acc
      have hab : b = a := by
        by_contra hab
        exact hne (hread.trans (if_neg hab))
      subst hab
      exact .inl ⟨rfl, hr, hi, hread.trans (if_pos rfl)⟩
    · exact absurd (congrArg (Memory.read · b) hmem) hne
  | delivery v k w _ _ => exact absurd rfl hne
  | load image _ _ _ => exact .inr ⟨image, rfl⟩
  | nothing _ _ => exact absurd rfl hne

@[simp] theorem completeUnlessStopped_ir (k : Kind) (s : State) : (completeUnlessStopped k s).ir = s.ir := by
  rw [completeUnlessStopped_frame]

/-- R83: what a fetch leaves in the working register. -/
theorem fetch_ir (s : State) : (fetch s).ir = s.mem.read s.pc.val := rfl

/-- Settles O40: completion keeps `ir` and the memory that the STORE wrote. -/
theorem storeIsSeenByTheNextFetch : Obligations.StoreIsSeenByTheNextFetch := by
  intro s a hs hi
  obtain ⟨u, hstep, hu⟩ := step_of_runsCycle hs
  rw [hi] at hstep hu
  obtain rfl := hu.eq_of_store
  refine ⟨_, hstep, completeUnlessStopped_ir _ _, ?_⟩
  rw [fetch_ir, completeUnlessStopped_mem]
  exact Memory.read_write s.mem a _ s.acc

end Sys2Proof.Machine

/-! ## The obligations about the encoding -/

namespace Sys2Proof

/-! ### The decoder, one equation per family (R62) -/

section DecodeByFamily

variable {ext : Ext911} {w : Word}

theorem decode_of_family_zero (h : opFamily w = 0) : decode ext w = .halt := by simp only [decode, h]

theorem decode_of_family_one (h : opFamily w = 1) : decode ext w = .add (operandField w).val := by
  simp only [decode, h]

theorem decode_of_family_two (h : opFamily w = 2) : decode ext w = .subtract (operandField w).val := by
  simp only [decode, h]

theorem decode_of_family_three (h : opFamily w = 3) : decode ext w = .store (operandField w).val := by
  simp only [decode, h]

theorem decode_of_family_four (h : opFamily w = 4) : decode ext w = .invalidFamily (operandField w) := by
  simp only [decode, h]

theorem decode_of_family_five (h : opFamily w = 5) : decode ext w = .load (operandField w).val := by
  simp only [decode, h]

theorem decode_of_family_six (h : opFamily w = 6) : decode ext w = .branchAlways (operandField w) := by
  simp only [decode, h]

theorem decode_of_family_seven (h : opFamily w = 7) : decode ext w = .branchIfZero (operandField w) := by
  simp only [decode, h]

theorem decode_of_family_eight (h : opFamily w = 8) : decode ext w = .branchIfPositive (operandField w) := by
  simp only [decode, h]

theorem decode_of_family_nine (h : opFamily w = 9) : decode ext w = decodeSubcode ext (operandField w) := by
  simp only [decode, h]

end DecodeByFamily

section DecodeBySubcode

variable {ext : Ext911} {ss : Fin 100}

theorem decodeSubcode_of_one (h : ss.val = 1) : decodeSubcode ext ss = .input := by
  rw [show ss = 1 from Fin.ext h]
  rfl

theorem decodeSubcode_of_two (h : ss.val = 2) : decodeSubcode ext ss = .output := by
  rw [show ss = 2 from Fin.ext h]
  rfl

theorem decodeSubcode_of_eleven (h : ss.val = 11) (hext : ext = .inputChar) : decodeSubcode ext ss = .inputChar := by
  rw [show ss = 11 from Fin.ext h, hext]
  rfl

theorem decodeSubcode_of_twentyTwo (h : ss.val = 22) : decodeSubcode ext ss = .outputChar := by
  rw [show ss = 22 from Fin.ext h]
  rfl

theorem subcodeIsInvalid_iff :
    subcodeIsInvalid ext ss = true ↔ ss.val ≠ 1 ∧ ss.val ≠ 2 ∧ ss.val ≠ 22 ∧ (ss.val ≠ 11 ∨ ext = .invalid) := by
  simp [subcodeIsInvalid, and_assoc, Fin.ext_iff]

theorem decodeSubcode_of_invalid (h : subcodeIsInvalid ext ss = true) : decodeSubcode ext ss = .invalidSubcode ss := by
  obtain ⟨h1, h2, h22, h11⟩ := subcodeIsInvalid_iff.mp h
  rcases h11 with h11 | rfl
  · simp [decodeSubcode, Fin.ext_iff, h1, h2, h11, h22]
  · simp [decodeSubcode, Fin.ext_iff, h1, h2, h22]

end DecodeBySubcode

/-! ### What a word can decode to (R62, R64) -/

/-- The sub-codes of family 9, each with its instruction. -/
inductive SubcodeCase (ext : Ext911) (ss : Fin 100) : Instr → Prop
  | input (hs : ss.val = 1) : SubcodeCase ext ss .input
  | output (hs : ss.val = 2) : SubcodeCase ext ss .output
  | inputChar (hs : ss.val = 11) (hext : ext = .inputChar) : SubcodeCase ext ss .inputChar
  | outputChar (hs : ss.val = 22) : SubcodeCase ext ss .outputChar
  | invalid (hs : subcodeIsInvalid ext ss = true) : SubcodeCase ext ss (.invalidSubcode ss)

theorem decodeSubcode_cases (ext : Ext911) (ss : Fin 100) : SubcodeCase ext ss (decodeSubcode ext ss) := by
  by_cases hinvalid : subcodeIsInvalid ext ss = true
  · rw [decodeSubcode_of_invalid hinvalid]
    exact .invalid hinvalid
  have hvalid : ss.val = 1 ∨ ss.val = 2 ∨ ss.val = 22 ∨ ss.val = 11 ∧ ext = .inputChar := by
    cases ext <;> grind [subcodeIsInvalid_iff]
  rcases hvalid with hs | hs | hs | ⟨hs, hext⟩
  · rw [decodeSubcode_of_one hs]
    exact .input hs
  · rw [decodeSubcode_of_two hs]
    exact .output hs
  · rw [decodeSubcode_of_twentyTwo hs]
    exact .outputChar hs
  · rw [decodeSubcode_of_eleven hs hext]
    exact .inputChar hs hext

/-- The families of words, each with the instruction that its words decode to. -/
inductive DecodeCase (ext : Ext911) (w : Word) : Instr → Prop
  | halt (hf : opFamily w = 0) : DecodeCase ext w .halt
  | add (hf : opFamily w = 1) : DecodeCase ext w (.add (operandField w).val)
  | subtract (hf : opFamily w = 2) : DecodeCase ext w (.subtract (operandField w).val)
  | store (hf : opFamily w = 3) : DecodeCase ext w (.store (operandField w).val)
  | invalidFamily (hf : opFamily w = 4) : DecodeCase ext w (.invalidFamily (operandField w))
  | load (hf : opFamily w = 5) : DecodeCase ext w (.load (operandField w).val)
  | branchAlways (hf : opFamily w = 6) : DecodeCase ext w (.branchAlways (operandField w))
  | branchIfZero (hf : opFamily w = 7) : DecodeCase ext w (.branchIfZero (operandField w))
  | branchIfPositive (hf : opFamily w = 8) : DecodeCase ext w (.branchIfPositive (operandField w))
  | subcode (hf : opFamily w = 9) {i : Instr} (hi : SubcodeCase ext (operandField w) i) : DecodeCase ext w i

/-- R61: the family is a decimal digit. -/
theorem opFamily_lt (w : Word) : opFamily w < 10 := Nat.div_lt_of_lt_mul w.isLt

theorem decode_cases (ext : Ext911) (w : Word) : DecodeCase ext w (decode ext w) := by
  have hlt := opFamily_lt w
  unfold decode
  split
  case h_1 hf => exact .halt hf
  case h_2 hf => exact .add hf
  case h_3 hf => exact .subtract hf
  case h_4 hf => exact .store hf
  case h_5 hf => exact .invalidFamily hf
  case h_6 hf => exact .load hf
  case h_7 hf => exact .branchAlways hf
  case h_8 hf => exact .branchIfZero hf
  case h_9 hf => exact .branchIfPositive hf
  case h_10 => exact .subcode (by grind) (decodeSubcode_cases ext (operandField w))

/-! ### Words and digits (R60, R61) -/

/-- A word is the number that its digits make. -/
theorem val_of_digits (w : Word) : 100 * opFamily w + (operandField w).val = w.val := Nat.div_add_mod w.val 100

theorem opFamily_eq_zero_iff {w : Word} : opFamily w = 0 ↔ w.val < 100 := by
  simp [opFamily, Nat.div_eq_zero_iff]

/-- The per-instruction laws `EncodedDigits` as one statement. -/
theorem digits_encode {ext : Ext911} (i : Instr) (h : i.wellFormed ext = true) :
    opFamily (encode i) = i.family ∧ (operandField (encode i)).val = i.lowDigits := by
  cases i with
  | halt => exact Laws.EncodedDigits.halt ext h
  | add a => exact Laws.EncodedDigits.add a ext h
  | subtract a => exact Laws.EncodedDigits.subtract a ext h
  | store a => exact Laws.EncodedDigits.store a ext h
  | load a => exact Laws.EncodedDigits.load a ext h
  | branchAlways a => exact Laws.EncodedDigits.branchAlways a ext h
  | branchIfZero a => exact Laws.EncodedDigits.branchIfZero a ext h
  | branchIfPositive a => exact Laws.EncodedDigits.branchIfPositive a ext h
  | input => exact Laws.EncodedDigits.input ext h
  | output => exact Laws.EncodedDigits.output ext h
  | inputChar => exact Laws.EncodedDigits.inputChar ext h
  | outputChar => exact Laws.EncodedDigits.outputChar ext h
  | invalidFamily x => exact Laws.EncodedDigits.invalidFamily x ext h
  | invalidSubcode ss => exact Laws.EncodedDigits.invalidSubcode ss ext h

theorem DecodeCase.family_eq {ext : Ext911} {w : Word} {i : Instr} (h : DecodeCase ext w i) :
    i.family = opFamily w := by
  cases h with
  | subcode hf hi => cases hi <;> exact hf.symm
  | _ hf => exact hf.symm

/-- Only HALT drops the operand digits. -/
theorem DecodeCase.lowDigits_eq {ext : Ext911} {w : Word} {i : Instr} (h : DecodeCase ext w i)
    (hw : opFamily w ≠ 0) : i.lowDigits = (operandField w).val := by
  cases h with
  | halt hf => exact absurd hf hw
  | subcode _ hi =>
    cases hi with
    | invalid _ => rfl
    | _ hs => exact hs.symm
  | _ => rfl

/-! ### Decoding and encoding are inverse -/

/-- Settles O1: the digits of the instruction's word select its own arm of the decoder. -/
theorem decodeOfEncodeIsTheInstruction : Obligations.DecodeOfEncodeIsTheInstruction := by
  intro ext i hwf
  obtain ⟨hfamily, hlow⟩ := digits_encode i hwf
  cases i with
  | halt => exact decode_of_family_zero hfamily
  | add a => exact (decode_of_family_one hfamily).trans (congrArg Instr.add hlow)
  | subtract a => exact (decode_of_family_two hfamily).trans (congrArg Instr.subtract hlow)
  | store a => exact (decode_of_family_three hfamily).trans (congrArg Instr.store hlow)
  | invalidFamily x => exact (decode_of_family_four hfamily).trans (congrArg Instr.invalidFamily (Fin.ext hlow))
  | load a => exact (decode_of_family_five hfamily).trans (congrArg Instr.load hlow)
  | branchAlways a => exact (decode_of_family_six hfamily).trans (congrArg Instr.branchAlways (Fin.ext hlow))
  | branchIfZero a => exact (decode_of_family_seven hfamily).trans (congrArg Instr.branchIfZero (Fin.ext hlow))
  | branchIfPositive a =>
    exact (decode_of_family_eight hfamily).trans (congrArg Instr.branchIfPositive (Fin.ext hlow))
  | input => exact (decode_of_family_nine hfamily).trans (decodeSubcode_of_one hlow)
  | output => exact (decode_of_family_nine hfamily).trans (decodeSubcode_of_two hlow)
  | inputChar => exact (decode_of_family_nine hfamily).trans (decodeSubcode_of_eleven hlow (eq_of_beq hwf))
  | outputChar => exact (decode_of_family_nine hfamily).trans (decodeSubcode_of_twentyTwo hlow)
  | invalidSubcode ss =>
    have hss : operandField (encode (.invalidSubcode ss)) = ss := Fin.ext hlow
    rw [decode_of_family_nine hfamily, hss, decodeSubcode_of_invalid hwf]

/-- Settles O2: a word's digits are those of its instruction, but for HALT's operand. -/
theorem encodeOfDecodeIsTheWord : Obligations.EncodeOfDecodeIsTheWord := by
  intro ext w
  refine ⟨fun hw => ?_, fun hw => decode_of_family_zero (opFamily_eq_zero_iff.mpr hw)⟩
  have hcase := decode_cases ext w
  have hnonzero : opFamily w ≠ 0 := fun h => absurd (opFamily_eq_zero_iff.mp h) (Nat.not_lt.mpr hw)
  rw [encode, hcase.family_eq, hcase.lowDigits_eq hnonzero, val_of_digits]
  exact Fin.ofNat_val_eq_self w

/-- Settles O3: well-formedness bounds a memory operand. -/
theorem decodedInstructionsAreWellFormed : Obligations.DecodedInstructionsAreWellFormed := by
  intro ext w
  have hwf := Machine.decode_wellFormed ext w
  refine ⟨hwf, fun a hdecode => Nat.le_of_lt_succ ?_⟩
  rcases hdecode with hi | hi | hi | hi <;>
    · rw [hi] at hwf
      exact of_decide_eq_true hwf

/-- Settles O4: its clauses are the decoder's equations, by family and by sub-code. -/
theorem decoderFollowsTheFamilies : Obligations.DecoderFollowsTheFamilies := by
  intro ext w a ha
  obtain rfl : a = operandField w := Fin.ext ha
  refine ⟨decode_of_family_zero, decode_of_family_one, decode_of_family_two, decode_of_family_three,
    decode_of_family_four, decode_of_family_five, decode_of_family_six, decode_of_family_seven,
    decode_of_family_eight, fun hf => ?_⟩
  rw [decode_of_family_nine hf]
  exact ⟨decodeSubcode_of_one, decodeSubcode_of_two, decodeSubcode_of_eleven,
    fun h11 hext => decodeSubcode_of_invalid (subcodeIsInvalid_iff.mpr (by simp [h11, hext])),
    decodeSubcode_of_twentyTwo,
    fun h1 h2 h11 h22 => decodeSubcode_of_invalid (subcodeIsInvalid_iff.mpr ⟨h1, h2, h22, .inl h11⟩)⟩

/-! ### The opcode table (R67) -/

@[simp] theorem matchesWord_hundreds (v : Nat) (k : Kind) (w : Word) :
    (TableRow.mk .hundreds v k).matchesWord w = (opFamily w == v / 100) := rfl

/-- Two numbers with the same digits are equal. -/
@[simp] theorem matchesWord_allDigits (v : Nat) (k : Kind) (w : Word) :
    (TableRow.mk .allDigits v k).matchesWord w = (opFamily w == v / 100 && (operandField w).val == v % 100) := by
  have hw := val_of_digits w
  rw [Bool.eq_iff_iff]
  simp only [TableRow.matchesWord, beq_iff_eq, Bool.and_eq_true]
  omega

/-- In each case the word's digits decide which rows of the table match; the first of them has the case's kind. -/
theorem DecodeCase.tableKind_eq {ext : Ext911} {w : Word} {i : Instr} (h : DecodeCase ext w i) :
    tableKind ext w = some i.kind := by
  cases h with
  | subcode hf hi =>
    cases hi with
    | input hs => simp [tableKind, opcodeTable, hf, hs, Instr.kind]
    | output hs => simp [tableKind, opcodeTable, hf, hs, Instr.kind]
    | inputChar hs hext => simp [tableKind, opcodeTable, hf, hs, hext, Instr.kind]
    | outputChar hs => cases ext <;> simp [tableKind, opcodeTable, hf, hs, Instr.kind]
    | invalid hs =>
      obtain ⟨h1, h2, h22, h11⟩ := subcodeIsInvalid_iff.mp hs
      rcases h11 with h11 | rfl
      · cases ext <;> simp [tableKind, opcodeTable, hf, h1, h2, h11, h22, Instr.kind]
      · simp [tableKind, opcodeTable, hf, h1, h2, h22, Instr.kind]
  | _ hf => cases ext <;> simp [tableKind, opcodeTable, hf, Instr.kind]

/-- Settles O5, by what the word can decode to. -/
theorem decoderAgreesWithTheOpcodeTable : Obligations.DecoderAgreesWithTheOpcodeTable :=
  fun ext w => (decode_cases ext w).tableKind_eq

/-! ### How many words decode to each kind (R63) -/

/-- The one kind of all words of a family 0 to 8 (the opcode map of 30_encoding.md section 3). -/
def familyKind : Nat → Kind
  | 0 => .halt
  | 1 => .add
  | 2 => .subtract
  | 3 => .store
  | 5 => .load
  | 6 => .branchAlways
  | 7 => .branchIfZero
  | 8 => .branchIfPositive
  | _ => .invalid

theorem DecodeCase.kind_eq_familyKind {ext : Ext911} {w : Word} {i : Instr} (h : DecodeCase ext w i)
    (hw : opFamily w ≠ 9) : i.kind = familyKind (opFamily w) := by
  cases h with
  | subcode hf _ => exact absurd hf hw
  | _ hf => rw [hf]; rfl

/-- The word with family `c` and operand `ss`. -/
def wordOfDigits (c : Fin 10) (ss : Fin 100) : Word := ⟨100 * c.val + ss.val, by omega⟩

theorem opFamily_wordOfDigits (c : Fin 10) (ss : Fin 100) : opFamily (wordOfDigits c ss) = c.val := by
  simp only [opFamily, wordOfDigits]
  omega

theorem operandField_wordOfDigits (c : Fin 10) (ss : Fin 100) : operandField (wordOfDigits c ss) = ss := by
  apply Fin.ext
  simp only [operandField, wordOfDigits]
  omega

theorem wordOfDigits_operandField {c : Fin 10} {w : Word} (h : opFamily w = c.val) :
    wordOfDigits c (operandField w) = w := by
  apply Fin.ext
  rw [← val_of_digits w, h]
  rfl

/-- The words of one family are counted by their operands. -/
theorem card_words_of_family (c : Fin 10) (p : Word → Prop) [DecidablePred p] :
    (Finset.univ.filter fun w => p w ∧ opFamily w = c.val).card =
      (Finset.univ.filter fun ss => p (wordOfDigits c ss)).card :=
  Finset.card_nbij' operandField (wordOfDigits c)
    (fun w hw => by
      obtain ⟨hp, hf⟩ := (Finset.mem_filter.mp hw).2
      simpa [wordOfDigits_operandField hf] using hp)
    (fun ss hss => by simpa [opFamily_wordOfDigits] using hss)
    (fun w hw => wordOfDigits_operandField (Finset.mem_filter.mp hw).2.2)
    (fun ss _ => operandField_wordOfDigits c ss)

theorem card_family_of_kind (ext : Ext911) (k : Kind) (c : Fin 10) (hc : c.val ≠ 9) :
    (Finset.univ.filter fun w => (decode ext w).kind = k ∧ opFamily w = c.val).card =
      if familyKind c.val = k then 100 else 0 := by
  have hkind (ss : Fin 100) : (decode ext (wordOfDigits c ss)).kind = familyKind c.val := by
    have hf := opFamily_wordOfDigits c ss
    rw [(decode_cases ext _).kind_eq_familyKind (hf.trans_ne hc), hf]
  rw [card_words_of_family c fun w => (decode ext w).kind = k]
  simp only [hkind]
  split_ifs with h <;> simp [h]

theorem card_family_nine_of_kind (ext : Ext911) (k : Kind) :
    (Finset.univ.filter fun w => (decode ext w).kind = k ∧ opFamily w = 9).card =
      (Finset.univ.filter fun ss => (decodeSubcode ext ss).kind = k).card := by
  have hdecode (ss : Fin 100) : decode ext (wordOfDigits 9 ss) = decodeSubcode ext ss := by
    rw [decode_of_family_nine (opFamily_wordOfDigits 9 ss), operandField_wordOfDigits]
  refine (card_words_of_family 9 fun w => (decode ext w).kind = k).trans ?_
  simp only [hdecode]

/-- A sum over the ten families of the words. -/
theorem card_words_of_kind (ext : Ext911) (k : Kind) :
    (Finset.univ.filter fun w => (decode ext w).kind = k).card =
      100 * ((Finset.range 9).filter fun c => familyKind c = k).card +
        (Finset.univ.filter fun ss => (decodeSubcode ext ss).kind = k).card := by
  have hfamilies : Set.MapsTo opFamily (Finset.univ.filter fun w => (decode ext w).kind = k) (Finset.range 10) :=
    fun w _ => Finset.mem_coe.mpr (Finset.mem_range.mpr (opFamily_lt w))
  have hfamily (c : Nat) (hc : c ∈ Finset.range 9) :
      (Finset.univ.filter fun w => (decode ext w).kind = k ∧ opFamily w = c).card =
        if familyKind c = k then 100 else 0 := by
    have hlt := Finset.mem_range.mp hc
    exact card_family_of_kind ext k ⟨c, by omega⟩ hlt.ne
  rw [Finset.card_eq_sum_card_fiberwise hfamilies, Finset.sum_range_succ]
  simp only [Finset.filter_filter]
  rw [card_family_nine_of_kind, Finset.sum_congr rfl hfamily, ← Finset.sum_filter, Finset.sum_const, smul_eq_mul,
    Nat.mul_comm]

/-- The obligation counts in a list, the lemmas above in a finite set. -/
theorem length_filter_finRange (n : Nat) (p : Fin n → Prop) [DecidablePred p] :
    ((List.finRange n).filter fun x => decide (p x)).length = (Finset.univ.filter p).card := rfl

/-- Settles O6: with the words counted family by family, what is left is to count 100 sub-codes. -/
theorem decodedWordCounts : Obligations.DecodedWordCounts := by
  intro ext count
  have hcount (k : Kind) : count k = 100 * ((Finset.range 9).filter fun c => familyKind c = k).card +
      (Finset.univ.filter fun ss => (decodeSubcode ext ss).kind = k).card :=
    (length_filter_finRange 1000 _).trans (card_words_of_kind ext k)
  simp only [hcount]
  cases ext <;> decide

end Sys2Proof

/-! ## The obligations about the cycle -/

namespace Sys2Proof.Machine

/-! ### Completion, element by element (R87, R89) -/

theorem completeUnlessStopped_of_stopped (k : Kind) {s : State}
    (h : (∃ i, s.run = .awaitingInput i) ∨ ∃ r, s.run = .faulted r) : completeUnlessStopped k s = s := by
  rcases h with ⟨i, h⟩ | ⟨r, h⟩ <;> simp only [completeUnlessStopped, h]

theorem completedRun_of_running {s : State} (h : s.run = .running) :
    completedRun s = if s.eom = true then .halted else .running := by
  rcases completedRun_cases s with ⟨he, -, heq⟩ | ⟨he, heq⟩
  · rw [heq, if_pos he]
  · have heom : s.eom = false := he.resolve_right fun hne => hne h
    rw [heq, h, heom, if_neg Bool.false_ne_true]

theorem complete_run_of_running (k : Kind) {s : State} (h : s.run = .running) :
    (complete k s).run = if s.eom = true then .halted else .running :=
  completedRun_of_running h

theorem completedRun_of_halted {s : State} (h : s.run = .halted) : completedRun s = .halted := by
  rcases completedRun_cases s with ⟨-, -, heq⟩ | ⟨-, heq⟩
  · exact heq
  · exact heq.trans h

theorem completedNeg_of_preserve (k : Kind) {s : State} (h : s.params.negFrame = .preserve) :
    completedNeg k s = s.neg := by
  simp only [completedNeg, h]

theorem completedNeg_of_clearOnOthers {k : Kind} {s : State} (h : s.params.negFrame = .clearOnOthers)
    (hk : completionKeepsNeg k = false) : completedNeg k s = false := by
  simp [completedNeg, h, hk]

theorem completionKeepsNeg_eq_false {k : Kind} (hadd : k ≠ .add) (hsub : k ≠ .subtract) (hload : k ≠ .load) :
    completionKeepsNeg k = false := by
  cases k with
  | add => exact absurd rfl hadd
  | subtract => exact absurd rfl hsub
  | load => exact absurd rfl hload
  | _ => rfl

theorem completionKeepsNeg_instrKind (k : InputKind) : completionKeepsNeg k.instrKind = false := by
  cases k <;> rfl

/-! ### The host's operations, accepted or out of place (R92 to R95) -/

theorem step_of_no_requests {s : State} (h : s.requests = []) : step s = transact .step s := by
  obtain ⟨mem, acc, pc, neg, run, out, ir, eom, params, requests⟩ := s
  cases h
  rfl

theorem step_of_request {s : State} {q : HostRequest} {rest : List HostRequest} (h : s.requests = q :: rest) :
    step s = transact q { s with requests := rest } := by
  simp only [step, nextRequest, takeRequest, h]
  rfl

/-- An input value in range ends the wait by completing the suspended instruction. -/
theorem hostResume_of_accepted {s : State} {k : InputKind} {v : Int} (hr : s.run = .awaitingInput k)
    (hv : 0 ≤ v ∧ v ≤ 999) :
    ∃ w : Word, (w.val : Int) = v ∧ hostResumeReply v s = .accepted ∧
      hostResume v s = complete k.instrKind { s with acc := w, run := .running } := by
  cases hw : wordOfInt v with
  | none => have := wordOfInt_eq_none.mp hw; omega
  | some w =>
    refine ⟨w, (wordOfInt_eq_some.mp hw).2, by simp only [hostResumeReply, hr, hw], ?_⟩
    simp only [hostResume, hr, hw]
    rfl

theorem hostResume_of_out_of_range {v : Int} (s : State) (hv : ¬ (0 ≤ v ∧ v ≤ 999)) : hostResume v s = s := by
  rcases hostResume_cases v s with ⟨_, w, -, hw, -⟩ | ⟨-, heq⟩
  · exact absurd (wordOfInt_eq_some.mp hw).1 hv
  · exact heq

theorem hostResume_of_not_waiting (v : Int) {s : State} (h : ∀ k, s.run ≠ .awaitingInput k) :
    hostResume v s = s ∧ hostResumeReply v s = .nothing := by
  cases hr : s.run with
  | awaitingInput k => exact absurd hr (h k)
  | _ => simp only [hostResume, hostResumeReply, hr, and_self]

theorem hostResetReply_of_words {image : List Int} {ws : List Word} (hl : image.length = numCells)
    (hw : wordsOfImage image = some ws) : hostResetReply image = .accepted := by
  simp only [hostResetReply, acceptedImage, if_pos hl, hw]

/-- R182: the check on the entries of an image. -/
theorem wordsOfImage_eq_none {image : List Int} : wordsOfImage image = none ↔ ∃ v ∈ image, v < 0 ∨ 999 < v := by
  induction image with
  | nil => simp [wordsOfImage]
  | cons v rest ih =>
    rw [List.exists_mem_cons_iff, ← ih, ← wordOfInt_eq_none]
    cases hv : wordOfInt v with
    | none => simp [wordsOfImage, hv]
    | some w => cases hrest : wordsOfImage rest <;> simp [wordsOfImage, hv, hrest]

/-! ### How a cycle ends (R81, R89) -/

theorem fallsThrough_fetch (s : State) (i : Instr) : fallsThrough (fetch s) i = fallsThrough s i := by
  cases i <;> rfl

theorem fallsThrough_of_kind {i : Instr} (s : State)
    (h : i.kind = .add ∨ i.kind = .subtract ∨ i.kind = .store ∨ i.kind = .load ∨ i.kind = .output ∨
      i.kind = .outputChar) : fallsThrough s i = true := by
  cases i with
  | add _ | subtract _ | store _ | load _ | output | outputChar => rfl
  | _ => simp [Instr.kind] at h

theorem fallsThrough_of_noBranch {i : Instr} {s : State} (hk : i.kind = .branchIfZero ∨ i.kind = .branchIfPositive)
    (ht : takenTarget s i = none) : fallsThrough s i = true := by
  cases i with
  | branchIfZero a => simpa [takenTarget, fallsThrough] using ht
  | branchIfPositive a => simpa [takenTarget, fallsThrough] using ht
  | _ => simp [Instr.kind] at hk

theorem takenTarget_of_fallsThrough {i : Instr} {s : State} (h : fallsThrough s i = true) : takenTarget s i = none := by
  cases i with
  | branchIfZero a => simpa [takenTarget, fallsThrough] using h
  | branchIfPositive a => simpa [takenTarget, fallsThrough] using h
  | branchAlways a => cases h
  | _ => rfl

section RunStateAfterCycle

variable {s : State}

theorem runStateAfterCycle_of_wait {k : InputKind} (hk : (fetchedInstr s).kind = k.instrKind) :
    runStateAfterCycle s = .awaitingInput k := by
  cases k <;> simp only [runStateAfterCycle, hk, InputKind.instrKind]

theorem runStateAfterCycle_of_halt
    (h : (fetchedInstr s).kind = .halt ∨ (fetchedInstr s).kind = .invalid ∧ s.params.invalidPolicy = .halt) :
    runStateAfterCycle s = .halted := by
  rcases h with hk | ⟨hk, hp⟩
  · simp only [runStateAfterCycle, hk]
  · simp only [runStateAfterCycle, hk, hp]

theorem runStateAfterCycle_of_fault (hk : (fetchedInstr s).kind = .invalid) (hp : s.params.invalidPolicy = .fault) :
    runStateAfterCycle s = .faulted ⟨.invalidInstruction, s.pc, (s.mem.read s.pc.val).val⟩ := by
  simp only [runStateAfterCycle, hk, hp]

theorem runStateAfterCycle_of_branch {a : Addr} (h : takenTarget s (fetchedInstr s) = some a) :
    runStateAfterCycle s = .running := by
  have hf : fallsThrough s (fetchedInstr s) ≠ true := fun hf => by
    rw [takenTarget_of_fallsThrough hf] at h
    cases h
  rcases kind_of_takenTarget h with hk | hk | hk <;> simp [runStateAfterCycle, hk, hf]

theorem runStateAfterCycle_of_fallsThrough (h : fallsThrough s (fetchedInstr s) = true) :
    runStateAfterCycle s = if s.pc.val = 99 then .halted else .running := by
  unfold runStateAfterCycle
  cases hi : fetchedInstr s with
  | halt | input | inputChar | invalidFamily _ | invalidSubcode _ | branchAlways _ =>
    rw [hi] at h
    cases h
  | _ => simp only [Instr.kind, ← hi, h, and_true]

end RunStateAfterCycle

/-- After an execute phase that fell through, the latch alone decides between `Halted` and `Running`. -/
theorem completed_run_of_fallsThrough {s u : State} (k : Kind) (hf : fallsThrough s (fetchedInstr s) = true)
    (hr : u.run = .running) (he : u.eom = (fetch s).eom) :
    (completeUnlessStopped k u).run = runStateAfterCycle s := by
  have hlatch : u.eom = true ↔ s.pc.val = 99 := by simp [he, fetch_eq]
  rw [completeUnlessStopped_of_settled k (.inl hr), complete_run_of_running k hr,
    runStateAfterCycle_of_fallsThrough hf]
  simp only [hlatch]

/-- The rows of R81 for a cycle, by what its execute phase did. -/
theorem completed_run_eq {s u : State} (hr : s.run = .running) (hu : ExecEffect (fetchedInstr s) (fetch s) u) :
    (completeUnlessStopped (fetchedInstr s).kind u).run = runStateAfterCycle s := by
  cases hu with
  | alu _ _ hk =>
    exact completed_run_of_fallsThrough _ (fallsThrough_of_kind s (hk.imp_right .inl)) hr rfl
  | load _ hk => exact completed_run_of_fallsThrough _ (fallsThrough_of_kind s (by simp [hk])) hr rfl
  | store a _ hi =>
    exact completed_run_of_fallsThrough _ (fallsThrough_of_kind s (by simp [hi, Instr.kind])) hr rfl
  | output hk => exact completed_run_of_fallsThrough _ (fallsThrough_of_kind s (by simp [hk])) hr rfl
  | outputChar hk => exact completed_run_of_fallsThrough _ (fallsThrough_of_kind s (by simp [hk])) hr rfl
  | noBranch hk ht =>
    rw [takenTarget_fetch] at ht
    exact completed_run_of_fallsThrough _ (fallsThrough_of_noBranch hk ht) hr rfl
  | branch a ht =>
    rw [takenTarget_fetch] at ht
    rw [runStateAfterCycle_of_branch ht]
    exact completeUnlessStopped_run_of_eom_false _ hr rfl
  | wait k hk => exact (runStateAfterCycle_of_wait hk).symm
  | halt hk =>
    rw [runStateAfterCycle_of_halt hk, completeUnlessStopped_of_settled _ (.inr rfl)]
    exact completedRun_of_halted rfl
  | fault hk hp =>
    rw [runStateAfterCycle_of_fault hk hp, fetchPc_fetch]
    rfl

/-! ### The transition table (R81) -/

section RunStateAfter

variable {s : State}

theorem runStateAfter_step_of_running (h : s.run = .running) : runStateAfter .step s = runStateAfterCycle s := by
  simp only [runStateAfter, h]

theorem runStateAfter_step_of_not_running (h : s.run ≠ .running) : runStateAfter .step s = s.run := by
  cases hr : s.run with
  | running => exact absurd hr h
  | _ => simp only [runStateAfter, hr]

theorem runStateAfter_resume_of_waiting {k : InputKind} (v : Int) (h : s.run = .awaitingInput k) :
    runStateAfter (.resume v) s =
      if 0 ≤ v ∧ v ≤ 999 then (if s.eom = true then .halted else .running) else .awaitingInput k := by
  simp only [runStateAfter, h]

theorem runStateAfter_resume_of_not_waiting (v : Int) (h : ∀ k, s.run ≠ .awaitingInput k) :
    runStateAfter (.resume v) s = s.run := by
  cases hr : s.run with
  | awaitingInput k => exact absurd hr (h k)
  | _ => simp only [runStateAfter, hr]

theorem runStateAfter_reset (image : List Int) :
    runStateAfter (.reset image) s =
      if image.length = 100 ∧ ∀ v ∈ image, 0 ≤ v ∧ v ≤ 999 then .running else s.run := rfl

end RunStateAfter

theorem hostResume_run (v : Int) (s : State) : (hostResume v s).run = runStateAfter (.resume v) s := by
  by_cases hwait : ∃ k, s.run = .awaitingInput k
  · obtain ⟨k, hr⟩ := hwait
    rw [runStateAfter_resume_of_waiting v hr]
    split_ifs with hv heom
    · obtain ⟨w, -, -, heq⟩ := hostResume_of_accepted hr hv
      rw [heq, complete_run_of_running _ rfl, if_pos heom]
    · obtain ⟨w, -, -, heq⟩ := hostResume_of_accepted hr hv
      rw [heq, complete_run_of_running _ rfl, if_neg heom]
    · rw [hostResume_of_out_of_range s hv, hr]
  · have hr : ∀ k, s.run ≠ .awaitingInput k := fun k hk => hwait ⟨k, hk⟩
    rw [runStateAfter_resume_of_not_waiting v hr, (hostResume_of_not_waiting v hr).1]

theorem hostReset_run (image : List Int) (s : State) :
    (hostReset image s).run = runStateAfter (.reset image) s := by
  rw [runStateAfter_reset]
  rcases hostReset_cases image s with ⟨ws, hl, hw, -, heq⟩ | ⟨hno, -, heq⟩
  · have hrange : ∀ v ∈ image, 0 ≤ v ∧ v ≤ 999 := by
      simpa [hw] using (wordsOfImage_eq_none (image := image)).not
    rw [heq, if_pos ⟨hl, hrange⟩]
    rfl
  · rw [heq, if_neg]
    rintro ⟨hl, hrange⟩
    obtain ⟨v, hv, hout⟩ := wordsOfImage_eq_none.mp (hno.resolve_left fun hne => hne hl)
    have := hrange v hv
    omega

/-- Settles O46. -/
theorem runStateFollowsTheTransitionTable : Obligations.RunStateFollowsTheTransitionTable := by
  intro q s
  cases q with
  | reset image => exact ⟨_, rfl, hostReset_run image s⟩
  | step =>
    by_cases hr : s.run = .running
    · obtain ⟨u, hexec, hu⟩ := exec_fetched_effect s
      refine ⟨_, (hostStep_of_running hr).trans (cycle_of_exec hexec), ?_⟩
      rw [completed_run_eq hr hu, runStateAfter_step_of_running hr]
    · exact ⟨s, hostStep_of_not_running hr, (runStateAfter_step_of_not_running hr).symm⟩
  | resume v => exact ⟨_, rfl, hostResume_run v s⟩
  | snapshot => exact ⟨s, rfl, rfl⟩

/-! ### Every step has an effect (R81, R88, R92) -/

/-- Settles O34. -/
theorem everyStepAnswersANextState : Obligations.EveryStepAnswersANextState := by
  intro s
  obtain ⟨t, ht, -⟩ := transact_effect (nextRequest s) (takeRequest s)
  exact ⟨t, ht⟩

/-- Settles O33. -/
theorem pendingRequestsAreTakenInOrder : Obligations.PendingRequestsAreTakenInOrder :=
  fun _ => ⟨step_of_no_requests, fun _ _ => step_of_request⟩

/-- Settles O32. -/
theorem stepRunsTheDecodedInstruction : Obligations.StepRunsTheDecodedInstruction := by
  rintro s i hr hrequests rfl
  obtain ⟨t, hexec, -⟩ := exec_fetched_effect s
  have hstep : step s = .next (completeUnlessStopped (fetchedInstr s).kind t) :=
    calc step s = hostStep s := step_of_no_requests hrequests
      _ = cycle s := hostStep_of_running hr
      _ = _ := cycle_of_exec hexec
  refine ⟨t, hexec, fun hsettled => ?_, fun hstopped => ?_⟩
  · rw [hstep, completeUnlessStopped_of_settled _ hsettled]
    rfl
  · rw [hstep, completeUnlessStopped_of_stopped _ hstopped]

/-! ### The end of memory (R89) -/

/-- A step that runs a cycle ends in the run state that the table gives for the cycle. -/
theorem step_run_of_runsCycle {s t : State} (hs : s.runsCycle) (h : step s = .next t) :
    t.run = runStateAfterCycle s := by
  have hr : s.run = .running := hs.1
  obtain ⟨u, hstep, hu⟩ := step_of_runsCycle hs
  rw [h] at hstep
  cases hstep
  exact completed_run_eq (s := takeRequest s) hr hu

/-- Settles O37: the run state is that of the table, and an instruction that falls through took no branch. -/
theorem endOfMemoryHaltsAtZero : Obligations.EndOfMemoryHaltsAtZero := by
  intro s hs hf
  obtain ⟨t, hstep, -, hpc⟩ := programCounterAfterACycle s hs
  have hpc : t.pc.val = (s.pc.val + 1) % 100 := hpc (takenTarget_of_fallsThrough hf)
  have hrun : t.run = if s.pc.val = 99 then .halted else .running :=
    (step_run_of_runsCycle hs hstep).trans (runStateAfterCycle_of_fallsThrough hf)
  have hbound := s.pc.isLt
  refine ⟨t, hstep, fun hlast => ⟨?_, by omega⟩, fun hlast => ⟨?_, by omega⟩⟩
  · rw [hrun, if_pos hlast]
  · rw [hrun, if_neg hlast]

/-! ### The negative flag (R87) -/

namespace ExecEffect

variable {i : Instr} {s t : State}

/-- R24: in execute, ADD and SUBTRACT are the writers of the negative flag. -/
theorem neg_cases (h : ExecEffect i s t) : (i.kind = .add ∨ i.kind = .subtract) ∨ t.neg = s.neg := by
  cases h with
  | alu _ _ hk => exact .inl hk
  | _ => exact .inr rfl

theorem neg_eq (h : ExecEffect i s t) (hadd : i.kind ≠ .add) (hsub : i.kind ≠ .subtract) : t.neg = s.neg :=
  h.neg_cases.resolve_left fun hk => hk.elim hadd hsub

theorem params_eq (h : ExecEffect i s t) : t.params = s.params := by
  cases h <;> rfl

end ExecEffect

theorem complete_not_stopped (k : Kind) {s : State} (h : s.run = .running ∨ s.run = .halted) :
    ¬ ((∃ i, (complete k s).run = .awaitingInput i) ∨ ∃ r, (complete k s).run = .faulted r) := by
  have hrun : (complete k s).run = .running ∨ (complete k s).run = .halted := completedRun_settled h
  rintro (⟨i, hi⟩ | ⟨r, hi⟩) <;> simp [hi] at hrun

/-- Settles O35: a cycle that completes treats the flag as completion does, and one that is stopped short of it wrote the
run state only. -/
theorem negativeFlagAfterACycle : Obligations.NegativeFlagAfterACycle := by
  intro s hs
  have hr : s.run = .running := hs.1
  obtain ⟨u, hstep, hu⟩ := step_of_runsCycle hs
  have hparams : u.params = s.params := hu.params_eq
  refine ⟨_, hstep, ?_⟩
  rcases hu.run_cases hr with hsettled | ⟨k, -, rfl⟩ | ⟨-, -, rfl⟩
  · rw [completeUnlessStopped_of_settled _ hsettled]
    refine ⟨fun hload => ?_, fun hp hadd hsub => ?_, fun hp hadd hsub hload _ => ?_,
      fun hstopped => absurd hstopped (complete_not_stopped _ hsettled)⟩
    · have hkeeps : completionKeepsNeg (fetchedInstr s).kind = true := by rw [hload]; rfl
      exact (completedNeg_of_keeps u hkeeps).trans (hu.neg_eq (by simp [hload]) (by simp [hload]))
    · exact (completedNeg_of_preserve _ (hparams ▸ hp)).trans (hu.neg_eq hadd hsub)
    · exact completedNeg_of_clearOnOthers (hparams ▸ hp) (completionKeepsNeg_eq_false hadd hsub hload)
  · rw [completeUnlessStopped_of_stopped _ (.inl ⟨k, rfl⟩)]
    exact ⟨fun _ => rfl, fun _ _ _ => rfl, by simp, fun _ => rfl⟩
  · rw [completeUnlessStopped_of_stopped _ (.inr ⟨_, rfl⟩)]
    exact ⟨fun _ => rfl, fun _ _ _ => rfl, by simp, fun _ => rfl⟩

/-! ### An accepted input value (R94) -/

/-- Settles O28: the delivery is the completion of the input instruction, from `Running`. -/
theorem resumeDeliversTheValue : Obligations.ResumeDeliversTheValue := by
  intro s k v hr hlow hhigh
  obtain ⟨w, hw, hreply, heq⟩ := hostResume_of_accepted hr ⟨hlow, hhigh⟩
  have hrun := complete_run_of_running k.instrKind (s := { s with acc := w, run := .running }) rfl
  refine ⟨_, congrArg Host.Outcome.next heq, hreply, rfl, hw, fun he => ?_, fun he => ?_, fun hp => ?_, fun hp => ?_⟩
  · rw [hrun, if_neg (by simp [he])]
  · rw [hrun, if_pos he]
  · exact completedNeg_of_preserve _ hp
  · exact completedNeg_of_clearOnOthers hp (completionKeepsNeg_instrKind k)

/-! ### The final run states (R90, R91, R98) -/

/-- From a final run state the only effect that an operation can have is the load of an accepted image. -/
theorem TransactEffect.of_final {q : HostRequest} {s t : State} (h : TransactEffect s q t) (hf : s.run.final = true) :
    t = s ∨ ((∃ image, q = .reset image) ∧ hostReply q s = .accepted ∧ t.run = .running) := by
  cases h with
  | cycle u hr _ _ => simp [hr, RunState.final] at hf
  | delivery v k w hr _ => simp [hr, RunState.final] at hf
  | load image ws hl hw => exact .inr ⟨⟨image, rfl⟩, hostResetReply_of_words hl hw, rfl⟩
  | nothing _ _ => exact .inl rfl

/-- Settles O48. -/
theorem finalStatesAreLeftByResetOnly : Obligations.FinalStatesAreLeftByResetOnly :=
  fun _ _ _ hf h hne => ((effect_of_transact h).of_final hf).resolve_left hne

/-- Settles O47. -/
theorem faultedIsTerminal : Obligations.FaultedIsTerminal := by
  intro q s r hr
  obtain ⟨t, ht, heffect⟩ := transact_effect q s
  refine ⟨t, ht, ?_⟩
  rcases heffect.of_final (by rw [hr]; rfl) with rfl | ⟨⟨image, rfl⟩, hreply, -⟩
  · exact ⟨fun _ => rfl, fun hne => absurd rfl hne⟩
  · exact ⟨fun hno => absurd rfl (hno image), fun _ => ⟨⟨image, rfl⟩, hreply⟩⟩

/-! ### Requests out of place and the snapshot (R93 to R95) -/

/-- Settles O49. -/
theorem requestsOutOfPlaceDoNothing : Obligations.RequestsOutOfPlaceDoNothing := by
  intro s
  refine ⟨hostStep_of_not_running, fun v hr => ?_⟩
  obtain ⟨hstate, hreply⟩ := hostResume_of_not_waiting v hr
  exact ⟨congrArg Host.Outcome.next hstate, hreply⟩

theorem Memory.cells_get (m : Memory) {a : Nat} (h : a < 100) : m.cells[a]? = some (m.read a) := by
  rw [Memory.cells, Memory.cellsFrom_get m 0 numCells a h, Nat.zero_add]

/-- Settles O53. -/
theorem snapshotShowsTheCore : Obligations.SnapshotShowsTheCore := by
  intro s
  have hlength : (hostSnapshot s).mem.length = 100 := Memory.cellsFrom_length s.mem 0 numCells
  have hhalted : (hostSnapshot s).halted = true ↔ s.run = .halted := decide_eq_true_iff
  exact ⟨rfl, rfl, hlength, fun _ ha => Memory.cells_get s.mem ha, rfl, rfl, rfl, hhalted, rfl, rfl⟩

end Sys2Proof.Machine

/-! ## The obligations about arithmetic -/

namespace Sys2Proof.Machine

/-! ### The ALU, one lemma per case of the raw result (R110) -/

section RawResult

variable {x y : Word}

theorem aluAdd_of_le (h : x.val + y.val ≤ 999) : (aluAdd x y).1.val = x.val + y.val ∧ (aluAdd x y).2 = false := by
  rw [aluAdd, dif_neg (Nat.not_lt.mpr h)]
  exact ⟨rfl, rfl⟩

theorem aluAdd_of_gt (h : 999 < x.val + y.val) :
    (aluAdd x y).1.val = x.val + y.val - 1000 ∧ (aluAdd x y).2 = true := by
  rw [aluAdd, dif_pos h]
  exact ⟨rfl, rfl⟩

theorem aluSub_of_le (h : y.val ≤ x.val) : (aluSub x y).1.val + y.val = x.val ∧ (aluSub x y).2 = false := by
  rw [aluSub, dif_neg (Nat.not_lt.mpr h)]
  exact ⟨Nat.sub_add_cancel h, rfl⟩

theorem aluSub_of_lt (h : x.val < y.val) : (aluSub x y).1.val + y.val = x.val + 1000 ∧ (aluSub x y).2 = true := by
  rw [aluSub, dif_pos h]
  exact ⟨Nat.sub_add_cancel (by omega), rfl⟩

end RawResult

/-- Settles O11. -/
theorem aluNormalisesTheRawResult : Obligations.AluNormalisesTheRawResult := by
  intro x y
  refine ⟨aluAdd_of_gt, aluAdd_of_le, fun hborrow => ?_, fun hexact => ?_⟩
  · obtain ⟨hresult, hflag⟩ := aluSub_of_lt (x := x) (y := y) (by omega)
    exact ⟨by omega, hflag⟩
  · obtain ⟨hresult, hflag⟩ := aluSub_of_le (x := x) (y := y) (by omega)
    exact ⟨by omega, hflag⟩

/-! ### ADD and SUBTRACT (R111 to R113) -/

theorem exec_add_of_gt {a : Nat} (s : State) (h : 99 < a) :
    exec (.add a) s = .next { s with run := .faulted ⟨.addressOutOfRange, fetchPc s, a⟩ } :=
  congrArg Host.Outcome.next (withOperand_of_gt s _ h)

theorem exec_subtract_of_gt {a : Nat} (s : State) (h : 99 < a) :
    exec (.subtract a) s = .next { s with run := .faulted ⟨.addressOutOfRange, fetchPc s, a⟩ } :=
  congrArg Host.Outcome.next (withOperand_of_gt s _ h)

/-- Settles O12: the ALU's residues and flags, of the accumulator and the operand's cell. -/
theorem arithmeticWrapsModuloOneThousand : Obligations.ArithmeticWrapsModuloOneThousand := by
  intro a s ha
  obtain ⟨hsum, hcarry⟩ := aluAdd_spec s.acc (s.mem.read a)
  obtain ⟨hdifference, hborrow⟩ := aluSub_spec s.acc (s.mem.read a)
  refine ⟨⟨_, exec_add_of_le s ha, hsum, hcarry.trans Nat.not_le.symm⟩,
    ⟨_, exec_subtract_of_le s ha, ?_, hborrow.trans ?_⟩⟩
  · have hcell := (s.mem.read a).isLt
    simp only [hdifference]
    omega
  · omega

/-- Settles O13. -/
theorem addResult : Obligations.AddResult :=
  ⟨fun _ _ hw => decode_of_family_one hw,
   fun _ s => ⟨fun ha => ⟨_, exec_add_of_le s ha, rfl, aluAdd_of_le, aluAdd_of_gt⟩, exec_add_of_gt s⟩⟩

/-- Settles O14. -/
theorem subtractResult : Obligations.SubtractResult :=
  ⟨fun _ _ hw => decode_of_family_two hw,
   fun _ s => ⟨fun ha => ⟨_, exec_subtract_of_le s ha, rfl, aluSub_of_le, aluSub_of_lt⟩, exec_subtract_of_gt s⟩⟩

/-! ### The branches after a sum of exactly 1000 (R114) -/

theorem exec_branchIfZero_of_zero {s : State} (b : Addr) (h : s.acc.val = 0) :
    exec (.branchIfZero b) s = .next { s with pc := b, eom := false } := by
  rw [exec_branchIfZero, if_pos (Fin.ext h)]

theorem exec_branchIfPositive_of_neg {s : State} (c : Addr) (h : s.neg = true) :
    exec (.branchIfPositive c) s = .next s := by
  rw [exec_branchIfPositive, if_neg (by simp [h])]

/-- Settles O22: the sum carries, so ADD leaves 1000 - 1000 and the flag, and each branch tests one of the two. -/
theorem sumOfOneThousandBranchesOnZeroOnly : Obligations.SumOfOneThousandBranchesOnZeroOnly := by
  intro s a b c ha hsum
  obtain ⟨hresult, hflag⟩ := aluAdd_of_gt (x := s.acc) (y := s.mem.read a) (by omega)
  have hzero : (aluAdd s.acc (s.mem.read a)).1.val = 0 := by rw [hresult, hsum]
  exact ⟨_, exec_add_of_le s ha, hzero, hflag, exec_branchIfZero_of_zero b hzero, exec_branchIfPositive_of_neg c hflag⟩

end Sys2Proof.Machine

/-! ## The obligations about data transfer -/

namespace Sys2Proof.Machine

/-! ### STORE (R120) -/

/-- R120: STORE is the memory write of the accumulator, so `memWriteChangesOneCellOrFaults` says all it does. -/
theorem exec_store (a : Nat) (s : State) : exec (.store a) s = .next (memWrite a s.acc s) := rfl

theorem exec_store_of_gt {a : Nat} (s : State) (h : 99 < a) :
    exec (.store a) s = .next { s with run := .faulted ⟨.addressOutOfRange, fetchPc s, a⟩ } := by
  rw [exec_store, memWrite_of_gt s.acc s h, raiseFault_eq]

/-- Settles O15: the frame of a memory write, of the accumulator's value. -/
theorem storeResult : Obligations.StoreResult := by
  refine ⟨fun _ _ hw => decode_of_family_three hw, fun a s => ⟨fun ha => ?_, exec_store_of_gt s, fun hp => ?_⟩⟩
  · obtain ⟨m, hm, hwritten, hothers⟩ := (memWriteChangesOneCellOrFaults a s.acc s).1 ha
    exact ⟨{ s with mem := m }, by rw [exec_store, hm], rfl, hwritten, rfl, hothers⟩
  · exact completedNeg_of_preserve (Instr.store a).kind hp

/-! ### LOAD (R121) -/

theorem exec_load_of_gt {a : Nat} (s : State) (h : 99 < a) :
    exec (.load a) s = .next { s with run := .faulted ⟨.addressOutOfRange, fetchPc s, a⟩ } :=
  congrArg Host.Outcome.next (withOperand_of_gt s _ h)

/-- Settles O16: LOAD is one of the kinds whose completion keeps `neg` under every parameter setting. -/
theorem loadResult : Obligations.LoadResult := by
  refine ⟨fun _ _ hw => decode_of_family_five hw, fun a s => ⟨exec_load_of_le s, exec_load_of_gt s, ?_⟩⟩
  have hkeeps : completionKeepsNeg (Instr.load a).kind = true := rfl
  exact completedNeg_of_keeps s hkeeps

end Sys2Proof.Machine

/-! ## The obligations about control transfer -/

namespace Sys2Proof

/-- The converse of `val_of_digits`: a number of this form has these digits (R61). -/
theorem digits_of_val {w : Word} {c : Nat} {a : Fin 100} (h : w.val = 100 * c + a.val) :
    opFamily w = c ∧ operandField w = a := by
  have hw := val_of_digits w
  refine ⟨?_, Fin.ext ?_⟩ <;> omega

end Sys2Proof

namespace Sys2Proof.Machine

/-! ### HALT (R134) -/

/-- A step that runs a cycle completes what the execute phase of the fetched instruction answers. -/
theorem step_of_exec {s u : State} (hs : s.runsCycle)
    (hexec : exec (fetchedInstr s) (fetch (takeRequest s)) = .next u) :
    step s = .next (completeUnlessStopped (fetchedInstr s).kind u) := by
  obtain ⟨hr, hq⟩ := hs
  calc step s = hostStep (takeRequest s) := by rw [step, hq]; rfl
    _ = cycle (takeRequest s) := hostStep_of_running hr
    _ = _ := cycle_of_exec hexec

/-- The cycle of a HALT: fetch, the run state, and a completion that is not skipped. -/
theorem step_of_fetched_halt {s : State} (hs : s.runsCycle) (hi : fetchedInstr s = .halt) :
    step s = .next (complete .halt { fetch (takeRequest s) with run := .halted }) := by
  have hexec : exec (fetchedInstr s) (fetch (takeRequest s)) =
      .next { fetch (takeRequest s) with run := .halted } := by rw [hi, exec_halt]
  rw [step_of_exec hs hexec, hi, completeUnlessStopped_of_settled _ (.inr rfl)]
  rfl

/-- Settles O21: between the fetch, which moved `pc`, and the completion, which treats `neg`, only the run state is
written; that it is already `Halted` makes the latch set at 99 of no effect. -/
theorem haltResult : Obligations.HaltResult := by
  have hdecode (ext : Ext911) (w : Word) (hw : w.val ≤ 99) : decode ext w = .halt :=
    decode_of_family_zero (opFamily_eq_zero_iff.mpr (Nat.lt_succ_of_le hw))
  refine ⟨hdecode, exec_halt, fun s hs hw => ?_⟩
  have hi : fetchedInstr s = .halt := hdecode s.params.ext911 _ hw
  exact ⟨_, step_of_fetched_halt hs hi, completedRun_of_halted rfl, nextPc_val s.pc, rfl, rfl, rfl,
    fun hp => completedNeg_of_preserve _ hp, fun hp => completedNeg_of_clearOnOthers hp rfl⟩

/-! ### The branches (R131 to R133) -/

theorem exec_branchIfZero_of_ne_zero {s : State} (a : Addr) (h : s.acc.val ≠ 0) :
    exec (.branchIfZero a) s = .next s := by
  rw [exec_branchIfZero, if_neg fun hacc => h (congrArg Fin.val hacc)]

theorem exec_branchIfPositive_of_not_neg {s : State} (a : Addr) (h : s.neg = false) :
    exec (.branchIfPositive a) s = .next { s with pc := a, eom := false } := by
  rw [exec_branchIfPositive, if_pos h]

/-- Settles O18. -/
theorem branchAlwaysResult : Obligations.BranchAlwaysResult := by
  refine ⟨fun ext w a hw => ?_, fun a s => exec_branchAlways s a⟩
  obtain ⟨hfamily, hoperand⟩ := digits_of_val (c := 6) hw
  rw [decode_of_family_six hfamily, hoperand]

/-- Settles O19. -/
theorem branchIfZeroResult : Obligations.BranchIfZeroResult := by
  refine ⟨fun ext w a hw => ?_, fun a s => ⟨exec_branchIfZero_of_zero a, exec_branchIfZero_of_ne_zero a⟩⟩
  obtain ⟨hfamily, hoperand⟩ := digits_of_val (c := 7) hw
  rw [decode_of_family_seven hfamily, hoperand]

/-- Settles O20. -/
theorem branchIfPositiveResult : Obligations.BranchIfPositiveResult := by
  refine ⟨fun ext w a hw => ?_, fun a s => ⟨exec_branchIfPositive_of_not_neg a, exec_branchIfPositive_of_neg a⟩⟩
  obtain ⟨hfamily, hoperand⟩ := digits_of_val (c := 8) hw
  rw [decode_of_family_eight hfamily, hoperand]

end Sys2Proof.Machine

/-! ## The obligations about input and output -/

namespace Sys2Proof

/-! ### The words of the input and output instructions (R62, R64) -/

/-- The sub-code of a word of family 9 is what the word exceeds 900 by. -/
theorem decode_of_subcode {ext : Ext911} {w : Word} {ss : Fin 100} (h : w.val = 100 * 9 + ss.val) :
    decode ext w = decodeSubcode ext ss := by
  obtain ⟨hfamily, hsubcode⟩ := digits_of_val h
  rw [decode_of_family_nine hfamily, hsubcode]

theorem decode_of_val_901 {ext : Ext911} {w : Word} (h : w.val = 901) : decode ext w = .input :=
  (decode_of_subcode (ss := 1) h).trans (decodeSubcode_of_one rfl)

theorem decode_of_val_902 {ext : Ext911} {w : Word} (h : w.val = 902) : decode ext w = .output :=
  (decode_of_subcode (ss := 2) h).trans (decodeSubcode_of_two rfl)

theorem decode_of_val_911 {w : Word} (h : w.val = 911) : decode .inputChar w = .inputChar :=
  (decode_of_subcode (ss := 11) h).trans (decodeSubcode_of_eleven rfl rfl)

theorem decode_of_val_922 {ext : Ext911} {w : Word} (h : w.val = 922) : decode ext w = .outputChar :=
  (decode_of_subcode (ss := 22) h).trans (decodeSubcode_of_twentyTwo rfl)

end Sys2Proof

namespace Sys2Proof.Machine

/-! ### INPUT and INPUT-CHAR (R141, R142) -/

/-- What `resumeDeliversTheValue` says of a state that an input instruction has just suspended. -/
theorem resume_of_wait (s : State) (k : InputKind) (v : Int) (hlow : 0 ≤ v) (hhigh : v ≤ 999) :
    ∃ u, transact (.resume v) { s with run := .awaitingInput k } = .next u ∧ (u.acc.val : Int) = v ∧
      u.mem = s.mem ∧ u.pc = s.pc ∧ u.out = s.out := by
  obtain ⟨u, hresume, -, hframe, hvalue, -⟩ :=
    resumeDeliversTheValue { s with run := .awaitingInput k } k v rfl hlow hhigh
  exact ⟨u, hresume, hvalue, by rw [hframe], by rw [hframe], by rw [hframe]⟩

/-- The cycle of an INPUT: fetch and the wait, for its completion is left to `resume`. -/
theorem step_of_fetched_input {s : State} (hs : s.runsCycle) (hi : fetchedInstr s = .input) :
    step s = .next { fetch (takeRequest s) with run := .awaitingInput .num } := by
  have hexec : exec (fetchedInstr s) (fetch (takeRequest s)) =
      .next { fetch (takeRequest s) with run := .awaitingInput .num } := by rw [hi, exec_input]
  rw [step_of_exec hs hexec, completeUnlessStopped_of_stopped _ (.inl ⟨.num, rfl⟩)]

/-- The same of a wait entered at end-of-memory: the completion it was waiting for halts at the latch (R89). -/
theorem resume_of_wait_latched {s : State} (he : s.eom = true) (k : InputKind) (v : Int) (hlow : 0 ≤ v)
    (hhigh : v ≤ 999) :
    ∃ u, transact (.resume v) { s with run := .awaitingInput k } = .next u ∧ (u.acc.val : Int) = v ∧
      u.run = .halted ∧ u.pc = s.pc := by
  obtain ⟨u, hresume, -, hframe, hvalue, -, hhalted, -⟩ :=
    resumeDeliversTheValue { s with run := .awaitingInput k } k v rfl hlow hhigh
  exact ⟨u, hresume, hvalue, hhalted he, by rw [hframe]⟩

/-- Settles O29: the fetch from 99 sets the latch and moves `pc` to 0, and the wait keeps both until the delivery. -/
theorem inputFromTheLastCellHaltsAfterResume : Obligations.InputFromTheLastCellHaltsAfterResume := by
  intro s hs hpc hw
  have hi : fetchedInstr s = .input := decode_of_val_901 (by rw [hpc, hw])
  have heom : (fetch (takeRequest s)).eom = true := decide_eq_true hpc
  have hzero : (fetch (takeRequest s)).pc.val = 0 := congrArg Fin.val (pc_fetch_of_eom heom)
  refine ⟨_, step_of_fetched_input hs hi, rfl, hzero, rfl, heom, fun v hlow hhigh => ?_⟩
  obtain ⟨u, hresume, hvalue, hhalted, hkept⟩ := resume_of_wait_latched heom .num v hlow hhigh
  exact ⟨u, hresume, hvalue, hhalted, by rw [hkept, hzero]⟩

/-- Settles O23. -/
theorem inputWaitsForANumber : Obligations.InputWaitsForANumber :=
  fun s => ⟨fun _ => decode_of_val_901 rfl, exec_input s, resume_of_wait s .num⟩

/-- Settles O24. -/
theorem inputCharWaitsForACharacter : Obligations.InputCharWaitsForACharacter :=
  fun s => ⟨decode_of_val_911 rfl, exec_inputChar s, resume_of_wait s .char⟩

/-! ### OUTPUT and OUTPUT-CHAR (R143, R144) -/

/-- Settles O25. -/
theorem outputAppendsTheNumber : Obligations.OutputAppendsTheNumber :=
  ⟨fun _ => decode_of_val_902 rfl, exec_output⟩

/-- Settles O26. -/
theorem outputCharAppendsTheCharacter : Obligations.OutputCharAppendsTheCharacter :=
  ⟨fun _ => decode_of_val_922 rfl, exec_outputChar⟩

/-! ### A rejected input value (R145) -/

theorem hostResumeReply_of_out_of_range {s : State} {k : InputKind} {v : Int} (hr : s.run = .awaitingInput k)
    (hv : v < 0 ∨ 999 < v) : hostResumeReply v s = .invalidInput v := by
  simp only [hostResumeReply, hr, wordOfInt_eq_none.mpr hv]

/-- Settles O27. -/
theorem rejectedInputChangesNothing : Obligations.RejectedInputChangesNothing := by
  intro s k v hr hv
  have hstate : hostResume v s = s := hostResume_of_out_of_range s (by omega)
  exact ⟨congrArg Host.Outcome.next hstate, hostResumeReply_of_out_of_range hr hv⟩

end Sys2Proof.Machine

/-! ## The obligations about invalid instructions and faults -/

namespace Sys2Proof

/-- The instruction is one of the four that access memory, with the operand `a` (R41, R42). -/
def Instr.accesses (i : Instr) (a : Nat) : Prop := i = .add a ∨ i = .subtract a ∨ i = .store a ∨ i = .load a

/-- An instruction that no word encodes is an INVALID, whose sub-code names an operation, or accesses an address above
the memory. -/
theorem Instr.wellFormed_or (i : Instr) :
    i.wellFormed .inputChar = true ∨ i.kind = .invalid ∨ ∃ a, 99 < a ∧ i.accesses a := by
  have operand (a : Nat) : decide (a < 100) = true ∨ 99 < a := by
    rw [decide_eq_true_iff]
    omega
  cases i with
  | add a => exact (operand a).imp_right fun ha => .inr ⟨a, ha, .inl rfl⟩
  | subtract a => exact (operand a).imp_right fun ha => .inr ⟨a, ha, .inr (.inl rfl)⟩
  | store a => exact (operand a).imp_right fun ha => .inr ⟨a, ha, .inr (.inr (.inl rfl))⟩
  | load a => exact (operand a).imp_right fun ha => .inr ⟨a, ha, .inr (.inr (.inr rfl))⟩
  | invalidSubcode ss => exact .inr (.inl rfl)
  | _ => exact .inl rfl

end Sys2Proof

namespace Sys2Proof.Machine

/-! ### The two faults in execute (R160 to R162) -/

theorem exec_of_invalid {i : Instr} (s : State) (hk : i.kind = .invalid) :
    exec i s = .next (invalidInstruction s) := by
  cases i with
  | invalidFamily x => exact exec_invalidFamily s x
  | invalidSubcode ss => exact exec_invalidSubcode s ss
  | _ => cases hk

/-- R161: each of the four memory accesses faults alike above the memory. -/
theorem exec_access_of_gt {i : Instr} {a : Nat} (s : State) (ha : 99 < a) (hi : i.accesses a) :
    exec i s = .next { s with run := .faulted ⟨.addressOutOfRange, fetchPc s, a⟩ } := by
  rcases hi with rfl | rfl | rfl | rfl
  · exact exec_add_of_gt s ha
  · exact exec_subtract_of_gt s ha
  · exact exec_store_of_gt s ha
  · exact exec_load_of_gt s ha

/-- Every decoded instruction, also one that no word encodes, has one of the effects of `ExecEffect` or faults at an
address above the memory. -/
theorem exec_effect_or_access_fault {i : Instr} {s t : State} (h : exec i s = .next t) :
    ExecEffect i s t ∨
    ∃ a, 99 < a ∧ i.accesses a ∧ t = { s with run := .faulted ⟨.addressOutOfRange, fetchPc s, a⟩ } := by
  rcases i.wellFormed_or with hwf | hk | ⟨a, ha, hi⟩
  · obtain ⟨u, hexec, hu⟩ := exec_effect s hwf
    cases h.symm.trans hexec
    exact .inl hu
  · cases h.symm.trans (exec_of_invalid s hk)
    exact .inl (invalidInstruction_effect s hk)
  · cases h.symm.trans (exec_access_of_gt s ha hi)
    exact .inr ⟨a, ha, hi, rfl⟩

/-- R160, R167: the causes of a fault in execute, each with its record, and that nothing else is written. -/
theorem fault_of_exec {i : Instr} {s t : State} {r : FaultRecord} (h : exec i s = .next t) (hr : s.run = .running)
    (hf : t.run = .faulted r) :
    t = { s with run := .faulted r } ∧
    ((i.kind = .invalid ∧ s.params.invalidPolicy = .fault ∧ r = ⟨.invalidInstruction, fetchPc s, s.ir.val⟩) ∨
      ∃ a, 99 < a ∧ i.accesses a ∧ r = ⟨.addressOutOfRange, fetchPc s, a⟩) := by
  rcases exec_effect_or_access_fault h with heffect | ⟨a, ha, hi, rfl⟩
  · rcases heffect.run_cases hr with hsettled | ⟨k, -, rfl⟩ | ⟨hk, hp, rfl⟩
    · simp [hf] at hsettled
    · cases hf
    · cases hf
      exact ⟨rfl, .inl ⟨hk, hp, rfl⟩⟩
  · cases hf
    exact ⟨rfl, .inr ⟨a, ha, hi, rfl⟩⟩

/-- Settles O43: either cause's record names the address before `pc`. -/
theorem faultsArePrecise : Obligations.FaultsArePrecise := by
  intro i s t p r h hpc hr hf
  obtain ⟨heq, hcause⟩ := fault_of_exec h hr hf
  have hfetch : fetchPc s = p := fetchPc_of_nextPc s p hpc
  rcases hcause with ⟨-, -, rfl⟩ | ⟨a, -, -, rfl⟩
  · exact ⟨heq, hfetch⟩
  · exact ⟨heq, hfetch⟩

/-! ### The end of an invalid word's cycle (R162, R164) -/

/-- Settles O30. -/
theorem invalidHaltsOrFaults : Obligations.InvalidHaltsOrFaults := by
  intro i s hk
  rw [exec_of_invalid s hk]
  rcases invalidInstruction_cases s with ⟨hp, heq⟩ | ⟨hp, heq⟩
  · simp [hp, heq]
  · simp [hp, heq]

/-- Under the policy `Halt` the cycle of an invalid word is completed, as that of a HALT is. -/
theorem step_of_fetched_invalid_halt {s : State} (hs : s.runsCycle) (hk : (fetchedInstr s).kind = .invalid)
    (hp : s.params.invalidPolicy = .halt) :
    step s = .next (complete .invalid { fetch (takeRequest s) with run := .halted }) := by
  have hexec := (invalidHaltsOrFaults (fetchedInstr s) (fetch (takeRequest s)) hk).1 hp
  rw [step_of_exec hs hexec, hk, completeUnlessStopped_of_settled _ (.inr rfl)]

/-- Under the policy `Fault` it is not completed: fetch, then the run state. -/
theorem step_of_fetched_invalid_fault {s : State} (hs : s.runsCycle) (hk : (fetchedInstr s).kind = .invalid)
    (hp : s.params.invalidPolicy = .fault) :
    step s = .next { fetch (takeRequest s) with
      run := .faulted ⟨.invalidInstruction, s.pc, (s.mem.read s.pc.val).val⟩ } := by
  have hexec := (invalidHaltsOrFaults (fetchedInstr s) (fetch (takeRequest s)) hk).2 hp
  rw [step_of_exec hs hexec, completeUnlessStopped_of_stopped _ (.inr ⟨_, rfl⟩), fetchPc_fetch]
  rfl

/-- Settles O31. -/
theorem invalidWordEndsTheRun : Obligations.InvalidWordEndsTheRun := by
  intro s hs hk
  cases hp : s.params.invalidPolicy with
  | halt =>
    exact ⟨_, step_of_fetched_invalid_halt hs hk hp, nextPc_val s.pc, rfl, rfl, rfl,
      fun _ => completedRun_of_halted rfl, nofun⟩
  | fault =>
    exact ⟨_, step_of_fetched_invalid_fault hs hk hp, nextPc_val s.pc, rfl, rfl, rfl, nofun, fun _ => ⟨rfl, rfl⟩⟩

/-! ### What stops the core (R163) -/

/-- R89: the test for end-of-memory decides between two run states, and neither is a fault. -/
theorem endOfMemory_ne_faulted (p : Prop) [Decidable p] (r : FaultRecord) :
    (if p then RunState.halted else .running) ≠ .faulted r := by
  split_ifs <;> simp

/-- The rows of R81 for a cycle that end in `Halted`. -/
theorem runStateAfterCycle_eq_halted_iff {s : State} :
    runStateAfterCycle s = .halted ↔
      (fetchedInstr s).kind = .halt ∨
      ((fetchedInstr s).kind = .invalid ∧ s.params.invalidPolicy = .halt) ∨
      (s.pc.val = 99 ∧ fallsThrough s (fetchedInstr s) = true) := by
  unfold runStateAfterCycle
  cases fetchedInstr s with
  | invalidFamily _ | invalidSubcode _ => cases s.params.invalidPolicy <;> simp [Instr.kind, fallsThrough]
  | halt | input | inputChar => simp [Instr.kind, fallsThrough]
  | _ => simp [Instr.kind]

/-- The one row of R81 for a cycle that ends in `Faulted`. -/
theorem runStateAfterCycle_eq_faulted_iff {s : State} {r : FaultRecord} :
    runStateAfterCycle s = .faulted r ↔
      (fetchedInstr s).kind = .invalid ∧ s.params.invalidPolicy = .fault ∧
        r = ⟨.invalidInstruction, s.pc, (s.mem.read s.pc.val).val⟩ := by
  unfold runStateAfterCycle
  cases fetchedInstr s with
  | invalidFamily _ | invalidSubcode _ => cases s.params.invalidPolicy <;> simp [Instr.kind, eq_comm]
  | _ => simp [Instr.kind, endOfMemory_ne_faulted]

/-- The transition table holds of any answer of a host operation. -/
theorem run_of_transact {q : HostRequest} {s t : State} (h : transact q s = .next t) : t.run = runStateAfter q s := by
  obtain ⟨u, hu, hrun⟩ := runStateFollowsTheTransitionTable q s
  cases h.symm.trans hu
  exact hrun

/-- Outside a cycle only end-of-memory, at the completion of an accepted input, newly stops the core. -/
theorem TransactEffect.stops_outside_cycle {q : HostRequest} {s t : State} (h : TransactEffect s q t)
    (hq : q ≠ .step ∨ s.run ≠ .running) (hne : t.run ≠ s.run) :
    (t.run = .halted ↔ ∃ k v, s.run = .awaitingInput k ∧ q = .resume v ∧ 0 ≤ v ∧ v ≤ 999 ∧ s.eom = true) ∧
    ∀ r, t.run ≠ .faulted r := by
  cases h with
  | cycle u hr _ _ => simp [hr] at hq
  | delivery v k w hr hv =>
    obtain ⟨hlow, hhigh⟩ := (wordOfInt_eq_some.mp hv).1
    have hrun := complete_run_of_running k.instrKind (s := { s with acc := w, run := .running }) rfl
    rw [hrun]
    cases he : s.eom <;> simp [hr, hlow, hhigh]
  | load image ws _ _ => simp [State.reset]
  | nothing _ _ => exact absurd rfl hne

/-- Settles O44: a cycle by the rows of the transition table, any other operation by its effect, execute alone by
`fault_of_exec`. -/
theorem onlyTheNamedCausesStopTheCore : Obligations.OnlyTheNamedCausesStopTheCore := by
  refine ⟨fun q s t h => ⟨?_, (effect_of_transact h).stops_outside_cycle⟩, fun i s t r h hr hf => ?_⟩
  · rintro rfl hr
    rw [run_of_transact h, runStateAfter_step_of_running hr]
    exact ⟨runStateAfterCycle_eq_halted_iff, fun r => runStateAfterCycle_eq_faulted_iff⟩
  · rcases (fault_of_exec h hr hf).2 with ⟨hk, hp, rfl⟩ | ⟨a, ha, hi, rfl⟩
    · exact .inl ⟨rfl, hk, hp, rfl⟩
    · exact .inr ⟨rfl, ha, hi⟩

/-- An operation that newly leads to a fault is the cycle of an invalid word under the policy `Fault`. -/
theorem policy_of_new_fault {q : HostRequest} {s t : State} {r : FaultRecord} (h : transact q s = .next t)
    (hsafe : s.safe) (hf : t.run = .faulted r) : s.params.invalidPolicy = .fault := by
  obtain ⟨hcycle, houtside⟩ := onlyTheNamedCausesStopTheCore.1 q s t h
  by_cases hq : q = .step ∧ s.run = .running
  · obtain ⟨-, hp, -⟩ := ((hcycle hq.1 hq.2).2 r).mp hf
    exact hp
  · have hnew : t.run ≠ s.run := fun heq => hsafe r (heq.symm.trans hf)
    exact absurd hf ((houtside (not_and_or.mp hq) hnew).2 r)

/-- Settles O45. -/
theorem underTheHaltPolicyNoStepFaults : Obligations.UnderTheHaltPolicyNoStepFaults := by
  intro s t hp hsafe hstep r hf
  have hfault : s.params.invalidPolicy = .fault := policy_of_new_fault (s := takeRequest s) hstep hsafe hf
  rw [hp] at hfault
  cases hfault

/-- Settles O17: a cycle that ends in a fault ends in that of an invalid word. -/
theorem accessAboveTheMemoryFaults : Obligations.AccessAboveTheMemoryFaults := by
  refine ⟨fun a p s ha hpc i hi => ?_, fun s t r hs hstep hf => ?_⟩
  · rw [exec_access_of_gt s ha hi, fetchPc_of_nextPc s p hpc]
  · rw [step_run_of_runsCycle hs hstep] at hf
    obtain ⟨-, -, rfl⟩ := runStateAfterCycle_eq_faulted_iff.mp hf
    simp

end Sys2Proof.Machine

/-! ## Reset

What the check of R182 lets through and what it refuses, and what `reset(image)` makes of each (R180). -/

namespace Sys2Proof.Machine

/-- The words of an image are its entries, read as integers. -/
theorem wordsOfImage_entries {image : List Int} {ws : List Word} (h : wordsOfImage image = some ws) :
    ws.map (fun w => (w.val : Int)) = image := by
  induction image generalizing ws with
  | nil => cases h; rfl
  | cons v rest ih =>
    simp only [wordsOfImage] at h
    split at h
    · next w us hw hrest =>
      cases h
      have hhead : (w.val : Int) = v := (wordOfInt_eq_some.mp hw).2
      simp only [List.map_cons, hhead, ih hrest]
    · cases h

/-- An accepted image populates every cell with its entry. -/
theorem Memory.read_ofWords_entry {image : List Int} {ws : List Word} (h : wordsOfImage image = some ws) {i : Nat}
    (hi : i < image.length) : some ((Memory.read (Memory.ofWords 0 ws) i).val : Int) = image[i]? := by
  have hlt : i < ws.length := by rwa [wordsOfImage_length h]
  have hcell : Memory.read (Memory.ofWords 0 ws) i = ws[i] := by
    have hread := Memory.read_ofWords ws 0 i
    rwa [Nat.zero_add, List.getD_eq_getElem _ _ hlt] at hread
  calc some ((Memory.read (Memory.ofWords 0 ws) i).val : Int)
      = (ws.map (fun w => (w.val : Int)))[i]? := by simp [hcell, hlt]
    _ = image[i]? := by rw [wordsOfImage_entries h]

/-- An image of 100 entries in 0..999 is loaded into the reset state. -/
theorem hostReset_of_accepted {image : List Int} (s : State) (hl : image.length = 100)
    (hrange : ∀ v ∈ image, 0 ≤ v ∧ v ≤ 999) :
    ∃ ws, wordsOfImage image = some ws ∧ hostResetReply image = .accepted ∧
      hostReset image s =
        { State.reset with mem := Memory.ofWords 0 ws, params := s.params, requests := s.requests } := by
  rcases hostReset_cases image s with ⟨ws, -, hw, hreply, heq⟩ | ⟨hlength | hnone, -, -⟩
  · exact ⟨ws, hw, hreply, heq⟩
  · exact absurd hl hlength
  · obtain ⟨v, hv, hout⟩ := wordsOfImage_eq_none.mp hnone
    have := hrange v hv
    omega

/-- Settles O50. -/
theorem acceptedResetReinitialisesTheCore : Obligations.AcceptedResetReinitialisesTheCore := by
  intro image s hl hrange
  obtain ⟨ws, hw, hreply, heq⟩ := hostReset_of_accepted s hl hrange
  exact ⟨_, congrArg Host.Outcome.next heq, hreply, fun i hi => Memory.read_ofWords_entry hw (hl ▸ hi), rfl⟩

/-- Settles O51: either defect of the image contradicts its having been loaded. -/
theorem refusedResetChangesNothing : Obligations.RefusedResetChangesNothing := by
  intro image s hbad
  rcases hostReset_cases image s with ⟨ws, hl, hw, -, -⟩ | ⟨-, hreply, heq⟩
  · rcases hbad with hlength | hentry
    · exact absurd hl hlength
    · rw [wordsOfImage_eq_none.mpr hentry] at hw
      cases hw
  · exact ⟨congrArg Host.Outcome.next heq, hreply⟩

/-- Settles O52: the reset state lists no cell and no request, and `fetch_ir` says what the first fetch reads. -/
theorem machineAfterReset : Obligations.MachineAfterReset := by
  have hcells : ∀ a, (State.reset.mem.read a).val = 0 := fun _ => rfl
  have hcycle : State.reset.runsCycle := ⟨rfl, rfl⟩
  exact ⟨hcells, rfl, rfl, rfl, rfl, rfl, rfl, rfl, rfl, hcycle, fetch_ir State.reset⟩

end Sys2Proof.Machine

/-! ## The obligation about the sample words -/

namespace Sys2Proof

/-- R62, family 9: a word whose sub-code names no operation. -/
theorem decode_of_invalid_subcode {ext : Ext911} {w : Word} {ss : Fin 100} (h : w.val = 100 * 9 + ss.val)
    (hinvalid : subcodeIsInvalid ext ss = true) : decode ext w = .invalidSubcode ss :=
  (decode_of_subcode h).trans (decodeSubcode_of_invalid hinvalid)

/-- Settles O7: each word by the decoder's equation for its family, and in family 9 by the one for its sub-code. -/
theorem sampleWordsDecode : Obligations.SampleWordsDecode :=
  ⟨decode_of_family_zero rfl, decode_of_family_zero rfl, decode_of_family_zero rfl,
    decode_of_family_one rfl, decode_of_family_one rfl, decode_of_family_two rfl,
    decode_of_family_three rfl, decode_of_family_three rfl, decode_of_family_four rfl,
    decode_of_family_five rfl, decode_of_family_six rfl, decode_of_family_seven rfl,
    decode_of_family_eight rfl, decode_of_invalid_subcode rfl rfl,
    decode_of_val_901 rfl, decode_of_val_902 rfl, decode_of_invalid_subcode rfl rfl,
    decode_of_val_911 rfl, decode_of_invalid_subcode rfl rfl, decode_of_val_922 rfl,
    decode_of_invalid_subcode rfl rfl, decode_of_invalid_subcode rfl rfl⟩

end Sys2Proof
